-- ==== Sys2Proof/Word.lean ====
section
/-! DEFINITION. The words of the hardware: bus and controller bytes, 32-bit request words, 7-bit I2C addresses, and the raw
host request as it stands on the request port. -/

namespace Sys2Proof

/-- A byte on the bus, a controller byte, a payload byte: 8 bits (spec R6, `DATA_BITS`; R7). -/
abbrev Byte := BitVec 8

/-- A request word `W0`, `W1` or `W2` (spec R68, R70). -/
abbrev Word := BitVec 32

/-- A 7-bit I2C peripheral address (spec R6, `ADDR_BITS`; R40). -/
abbrev Addr := BitVec 7

/-- A raw host request on the request port (spec R68): the header `W0`, the two extension words that opcodes 0x7, 0x8
and 0x9 take (R70), and the payload, which comes with its length. For the other opcodes `w1` and `w2` are not part of the
request and nothing reads them (R74; log 2). -/
structure Request where
  w0 : Word
  w1 : Word := 0
  w2 : Word := 0
  payload : List Byte := []
  deriving DecidableEq, Repr

end Sys2Proof
end

