-- ==== Sys2Proof/Machine/Memory.lean ====
section
/-! DEFINITION. The memory behind the bus: the output latches of the expanders, one 8-bit latch at each 7-bit I2C address
(spec R40, R41, R28; log 21). -/

namespace Sys2Proof.Machine

/-- The latches whose content is known, as (address, byte) pairs with strictly rising addresses. -/
abbrev Memory := List Host.Cell

namespace Memory

/-- The canonical form: addresses strictly rising, all in the 7-bit address space. -/
abbrev wf (m : Memory) : Prop := m.Pairwise (fun x y => x.1 < y.1) ∧ ∀ c ∈ m, c.1 < 128

/-- What is known of the latch at an address. An unlisted address reads as `none`: nothing is known, as before the first
write (spec R242) and after a failed transaction (spec R206; log 8). -/
def read : Memory → Nat → Option Byte
  | [], _ => none
  | (a', b') :: m, a => if a' = a then some b' else read m a

/-- The latch at `a` now holds `b`. -/
def write : Memory → Nat → Byte → Memory
  | [], a, b => [(a, b)]
  | (a', b') :: m, a, b =>
    if a < a' then (a, b) :: (a', b') :: m
    else if a = a' then (a, b) :: m
    else (a', b') :: write m a b

/-- The latch at `a` is no longer known. -/
def forget : Memory → Nat → Memory
  | [], _ => []
  | (a', b') :: m, a => if a' = a then forget m a else (a', b') :: forget m a

end Memory

end Sys2Proof.Machine
end

