-- ==== Sys2Proof/Config.lean ====
section
/-! DEFINITION. What an implementation of the block fixes (spec R6), the alphabets of the bus and of the controller's
nibble port, and the free values: what the spec leaves open, as constants without a body. -/

namespace Sys2Proof

/-- The names of the kinds of bus failure (spec R217): the three that the source gives, and further ones, told apart by a
number (log 5). Which further kinds there are is the parameter `KindSet`. -/
inductive BusErrorKind where
  | nack
  | arbLost
  | timeout
  | other (n : Nat)
  deriving DecidableEq, Repr, Inhabited

/-- The parameter `BusErrorKind` (spec R6, D5, "the full list of kinds"): which kinds the bus interface has beside `NACK`,
`ARB_LOST` and `TIMEOUT`. -/
inductive KindSet where
  /-- Every further kind: the open type. -/
  | all
  /-- The further kinds of a list; with the empty list, none. -/
  | listed (ns : List Nat)
  deriving DecidableEq, Repr

/-- The outcome of one bus transaction (spec R11, R204). -/
inductive BusOutcome where
  | ok
  | err (k : BusErrorKind)
  deriving DecidableEq, Repr, Inhabited

/-- One nibble handed to the controller at a fall of its enable line, with the register-select line at that moment
(spec R104): `rs = false` for the instruction register, `true` for the data register. -/
structure Pulse where
  rs : Bool
  nibble : BitVec 4
  deriving DecidableEq, Repr, Inhabited

/-- The parameter `P_VBLANK` (spec R6, D15): what the blank bracket line of a vertical scroll holds. -/
inductive VBlank where
  | spaces
  | empty
  deriving DecidableEq, Repr

/-- The parameter `P_VPAD` (spec R6, D15): how the last chunk of a vertical scroll is padded. -/
inductive VPad where
  | none
  | spaces
  deriving DecidableEq, Repr

/-- The platform parameter that the visible backlight depends on (spec R126: "depends on hardware wiring"). -/
inductive BacklightWiring where
  /-- The backlight is lit when the expander's backlight line is high. -/
  | line
  /-- The wiring does not expose the backlight to the expander's lines: it stays as it is. -/
  | fixed (lit : Bool)
  deriving DecidableEq, Repr

/-- The implementation parameters of spec R6, with its defaults, and the wiring of R126. A state carries them and no step changes them, so a
statement about every state is a statement about every choice of them (log 11). The fixed timing constants `T_CMD_US`,
`T_CLEAR_EXTRA_US` and `T_INIT_US` stand in Machine/Operands.lean. -/
structure Config where
  /-- `RST_ADDR`. -/
  rstAddr : Addr := 0x27#7
  /-- `RST_BL`. -/
  rstBl : Bool := true
  /-- `RST_WIDTH`, 1..255. -/
  rstWidth : Byte := 16#8
  /-- `P_INIT_BL(true)`, as the flag whose mask it is (D9). -/
  initBlOn : Bool := true
  /-- `P_INIT_BL(false)`, as the flag whose mask it is (D9). -/
  initBlOff : Bool := false
  /-- `P_VBLANK`. -/
  vblank : VBlank := .spaces
  /-- `P_VPAD`. -/
  vpad : VPad := .none
  /-- `SPACE`. PRESUMED 0x20, as the spec's own G6 marks it (log 12). -/
  space : Byte := 0x20#8
  /-- `BusErrorKind`. -/
  kinds : KindSet := .all
  /-- The wiring of the backlight; the spec names no default (DESIGN CHOICE, log 24). -/
  wiring : BacklightWiring := .line
  deriving DecidableEq, Repr

/-- The parameters are legal: the reset width is in 1..255 (spec R6, R26). -/
abbrev Config.wf (c : Config) : Prop := c.rstWidth ≠ 0

/-- Free value: the outcome of a transaction for which the bus interface has named none (spec R204, I6; log 4). -/
opaque Config.freeOutcome : Nat → BusOutcome

/-- Free value: the kind index, less 3, of a further kind that is not numbered among the first 253 (spec R200; log 5). -/
opaque Config.freeKindIndex : Nat → Fin 253

/-- Free value: what the expander at an address holds when the model does not know it, before its first write (spec R242,
I4) and after a failed transaction (spec R206, I3, D7; log 8). -/
opaque Config.freeLatch : Nat → Nat → Byte

/-- Free value: the nibbles that a failing transaction handed to the controller (spec R206, I3, D7; log 7). -/
opaque Config.freePulses : Nat → List Pulse

/-- Free value: by how many microseconds a wait overruns (spec R102, I11; log 14). -/
opaque Config.freeOverrun : Nat → Nat

/-- Free value: how many microseconds a transaction takes (spec R255, I11; log 14). -/
opaque Config.freeDuration : Nat → Nat

/-- Free value: how many microseconds a step takes besides, whatever step it is (spec R255, D30: "no upper bound on any step";
log 14). -/
opaque Config.freeStepTime : Nat → Nat

end Sys2Proof
end

