-- ==== Sys2Proof/Machine/Types.lean ====
section
/-! DEFINITION. The sequencer's alphabets: phases, micro-operations, responses and trace events. -/

namespace Sys2Proof.Machine

/-- `SEQ.phase` (spec R25). -/
inductive Phase where
  /-- Running the initialisation that reset starts, host requests held. -/
  | resetInit
  /-- No request in progress. -/
  | idle
  /-- Running an accepted request. -/
  | busy
  deriving DecidableEq, Repr

/-- A micro-operation (spec R25, R100 to R103). -/
inductive MicroOp where
  /-- `SETBL(m)`. -/
  | setbl (m : Byte)
  /-- `XFER(rs, v)`: `rs = false` a command frame, `true` a data frame. -/
  | xfer (rs : Bool) (v : Byte)
  /-- `WAIT(d)`, `d` in microseconds. -/
  | wait (d : Nat)
  deriving DecidableEq, Repr

/-- The response of a request (spec R200). -/
inductive Response where
  | ok
  | eRange (loc : Byte)
  | eBus (k : BusErrorKind)
  | eIllegal
  deriving DecidableEq, Repr

/-- A trace event (spec R12). -/
inductive Event where
  /-- `X(a, [b0, b1, b2, b3], o)`: one bus transaction with its outcome. -/
  | x (a : Addr) (bytes : List Byte) (o : BusOutcome)
  /-- `W(d)`: one wait of at least `d` microseconds. -/
  | w (d : Nat)
  /-- `R(resp)`: the completion of a host request. -/
  | r (resp : Response)
  deriving DecidableEq, Repr

end Sys2Proof.Machine
end

