-- ==== Sys2Proof/Machine/Flags.lean ====
section
/-! DEFINITION. The block has no status flags (spec R21). This file holds the single bits that the block computes instead:
the backlight mask, the control lines of an expander byte, and the codes of a response. -/

namespace Sys2Proof.Machine

/-- The mask of a backlight flag: 0x08 when true, 0x00 when false (spec R24). -/
def blMask (f : Bool) : Byte := if f then 0x08#8 else 0x00#8

/-- The bits of `BL` that exist: bit 3 alone; bits [7:4] and [2:0] are hard-wired 0 (spec R24). -/
def blBits : Byte := 0x08#8

/-- The controller's enable line in an expander byte: bit 2 (spec R60). -/
def lineE (b : Byte) : Bool := b.getLsbD 2

/-- The register-select line: bit 0 (spec R60; 90_conflicts.md C1). -/
def lineRs (b : Byte) : Bool := b.getLsbD 0

/-- The read/write line: bit 1 (spec R60). -/
def lineRw (b : Byte) : Bool := b.getLsbD 1

/-- The backlight line: bit 3 (spec R60). -/
def lineBlk (b : Byte) : Bool := b.getLsbD 3

/-- The data nibble: bits [7:4] (spec R60). -/
def lineD (b : Byte) : BitVec 4 := b.extractLsb' 4 4

/-- The kind index of a bus error in a response word (spec R200): 0x03..0xFF for a further kind. Which of these each has the
spec does not say: the kind numbered `n` has 3 + n where that is in the range, and a free value in it where not (log 5). -/
def kindIndex : BusErrorKind → Byte
  | .nack => 0x00#8
  | .arbLost => 0x01#8
  | .timeout => 0x02#8
  | .other n => BitVec.ofNat 8 (3 + if n < 253 then n else (Config.freeKindIndex n).val)

/-- Is the number that of a further kind in the set? -/
def hasKind : KindSet → Nat → Bool
  | .all, _ => true
  | .listed ns, n => ns.contains n

/-- May the bus interface give the outcome: is it `OK`, or an error of a kind in the parameter `BusErrorKind` (spec R204, R217)? -/
def admits (c : Config) : BusOutcome → Bool
  | .ok | .err .nack | .err .arbLost | .err .timeout => true
  | .err (.other n) => hasKind c.kinds n

/-- The code of a response, bits [7:0] of its word (spec R200). -/
def responseCode : Response → Byte
  | .ok => 0x00#8
  | .eRange _ => 0x01#8
  | .eBus _ => 0x02#8
  | .eIllegal => 0x03#8

/-- The info of a response, bits [15:8] of its word: the location of `E_RANGE`, the kind index of `E_BUS` (spec R200), and
0 for the two responses that have none. -/
def responseInfo : Response → Byte
  | .ok => 0x00#8
  | .eRange loc => loc
  | .eBus k => kindIndex k
  | .eIllegal => 0x00#8

/-- The response word: bits [31:16] are 0 (spec R200). -/
def responseWord (r : Response) : Word := 0x0000#16 ++ (responseInfo r ++ responseCode r)

end Sys2Proof.Machine
end

