-- ==== Sys2Proof/Machine/Operands.lean ====
section
/-! DEFINITION. Operand assembly: the timing constants, the nibble split and the frame (spec R61, R63, R100), the DDRAM and
CGRAM address commands (R66, R67), list slices (R9), and the expansion of every request into micro-operations (R107: it
depends only on the request's fields, its payload and `WIDTH`, and on the parameters of R6). -/

namespace Sys2Proof.Machine

/-! ### Timing constants (spec R6), in microseconds -/

/-- `T_CMD_US`. -/
def tCmdUs : Nat := 2000
/-- `T_CLEAR_EXTRA_US`. -/
def tClearExtraUs : Nat := 2000
/-- `T_INIT_US`. -/
def tInitUs : Nat := 50000

/-! ### The framer -/

/-- `hi = v & 0xF0` (spec R63). -/
def nibbleHi (v : Byte) : Byte := v &&& 0xF0#8

/-- `lo = (v << 4) & 0xF0` (spec R63). -/
def nibbleLo (v : Byte) : Byte := (v <<< 4) &&& 0xF0#8

/-- `FRAME(rs, v, m)` (spec R100). The two branches keep the source's two ways of clearing the enable bit. -/
def frame (rs : Bool) (v m : Byte) : List Byte :=
  let hi := nibbleHi v
  let lo := nibbleLo v
  match rs with
  | false => [hi ||| m ||| 0x04#8, hi ||| m, lo ||| m ||| 0x04#8, lo ||| m]
  | true =>
    let ehHi := hi ||| m ||| 0x05#8
    let ehLo := lo ||| m ||| 0x05#8
    [ehHi, ehHi &&& 0xFB#8, ehLo, ehLo &&& 0xFB#8]

/-! ### Address commands -/

/-- `DD(L, P) = (0x80 + 0x40×(L − 1) + P) mod 256`, computed on the integers and then cut (spec R66, R8). -/
def ddCommand (line pos : Byte) : Byte :=
  BitVec.ofInt 8 (0x80 + 0x40 * ((line.toNat : Int) - 1) + (pos.toNat : Int))

/-- `CG(location) = 0x40 + 8×location` (spec R67). -/
def cgCommand (loc : Byte) : Byte := BitVec.ofNat 8 (0x40 + 8 * loc.toNat)

/-! ### Sequences (spec R9) -/

/-- `s[i:j]`: the elements with index k, i ≤ k < min(j, len s). -/
def slice (s : List Byte) (i j : Nat) : List Byte := (s.take j).drop i

/-- `spaces(n)`, with the parameter `SPACE`. -/
def spaces (c : Config) (n : Nat) : List Byte := List.replicate n c.space

/-! ### Expansions of the requests -/

/-- `SEND(rs, v)` (spec R108). -/
def send (rs : Bool) (v : Byte) : List MicroOp := [.xfer rs v, .wait tCmdUs]

/-- The data bytes of a text, one `SEND` each, in order. -/
def sendText (text : List Byte) : List MicroOp := text.flatMap (send true)

/-- The expansion of `backlight` (spec R125), also the backlight step of `init_body` (R120). -/
def backlightOps (on : Bool) : List MicroOp := [.setbl (blMask on)] ++ send false 0x00#8

/-- `init_body(f)` (spec R120, R121). -/
def initBody (f : Bool) : List MicroOp :=
  send false 0x33#8 ++ send false 0x32#8 ++ send false 0x28#8 ++
  send false 0x0C#8 ++ send false 0x06#8 ++ send false 0x01#8 ++
  backlightOps f ++ [.wait tInitUs]

/-- The mask that the prologue of `init` loads, `P_INIT_BL(f)` (spec R120, D9). -/
def pInitBl (c : Config) (f : Bool) : Byte := blMask (if f then c.initBlOn else c.initBlOff)

/-- The expansion of `write` (spec R123). -/
def writeOps (text : List Byte) (line pos : Byte) : List MicroOp :=
  send false (ddCommand line pos) ++ sendText text

/-- The expansion of `clear` (spec R124). -/
def clearOps : List MicroOp := send false 0x01#8 ++ [.wait tClearExtraUs]

/-- The expansion of `cgram` (spec R160). -/
def cgramOps (loc : Byte) (rows : List Byte) : List MicroOp :=
  send false (cgCommand loc) ++ sendText rows ++ send false 0x80#8

/-- The windows of one pass of `scroll.l` (spec R141): `P[i : i+W]` for i in 0..n, with `P = T ++ spaces(W)`. -/
def leftWindows (c : Config) (w : Nat) (text : List Byte) : List (List Byte) :=
  (List.range (text.length + 1)).map fun i => slice (text ++ spaces c w) i (i + w)

/-- The windows of one pass of `scroll.r` (spec R142): `P[n−i : n−i+W]` for i in 0..n, with `P = spaces(W) ++ T`. -/
def rightWindows (c : Config) (w : Nat) (text : List Byte) : List (List Byte) :=
  (List.range (text.length + 1)).map fun i =>
    slice (spaces c w ++ text) (text.length - i) (text.length - i + w)

/-- One pass of a horizontal scroll (spec R140): each window is written at position 0 of the line and followed by the
frame delay. -/
def windowPass (windows : List (List Byte)) (line : Byte) (d : Nat) : List MicroOp :=
  windows.flatMap fun s => writeOps s line 0 ++ [.wait d]

/-- `repeat r: body` (spec R9). -/
def passes (r : Nat) (body : List MicroOp) : List MicroOp := (List.replicate r body).flatten

/-- The expansion of `scroll.l` (spec R141). -/
def scrollLOps (c : Config) (width : Byte) (text : List Byte) (line : Byte) (delay reps : Word) : List MicroOp :=
  passes reps.toNat (windowPass (leftWindows c width.toNat text) line delay.toNat)

/-- The expansion of `scroll.r` (spec R142). -/
def scrollROps (c : Config) (width : Byte) (text : List Byte) (line : Byte) (delay reps : Word) : List MicroOp :=
  passes reps.toNat (windowPass (rightWindows c width.toNat text) line delay.toNat)

/-- `k = ceil(n / W)` (spec R143). -/
def chunkCount (w n : Nat) : Nat := (n + w - 1) / w

/-- The chunks `T[j×W : j×W+W]` for j in 0..k−1 (spec R143). -/
def chunks (w : Nat) (text : List Byte) : List (List Byte) :=
  (List.range (chunkCount w text.length)).map fun j => slice text (j * w) (j * w + w)

/-- The chunks, the last one padded to the width when `P_VPAD` says so (spec R143). -/
def paddedChunks (c : Config) (w : Nat) (text : List Byte) : List (List Byte) :=
  match c.vpad with
  | .none => chunks w text
  | .spaces =>
    (chunks w text).dropLast ++
      ((chunks w text).getLast?.toList.map fun last => last ++ spaces c (w - last.length))

/-- The blank bracket line (spec R143, `P_VBLANK`). -/
def blankLine (c : Config) (w : Nat) : List Byte :=
  match c.vblank with
  | .spaces => spaces c w
  | .empty => []

/-- `Lst`: the chunk list bracketed with one blank line at each end (spec R143). -/
def verticalLines (c : Config) (w : Nat) (text : List Byte) : List (List Byte) :=
  [blankLine c w] ++ paddedChunks c w text ++ [blankLine c w]

/-- One pass of `scroll.v` (spec R143): for each adjacent pair, the first line at display line 1, the second at line 2, and
the frame delay. -/
def pairPass (lines : List (List Byte)) (d : Nat) : List MicroOp :=
  (lines.zip lines.tail).flatMap fun p => writeOps p.1 1 0 ++ writeOps p.2 2 0 ++ [.wait d]

/-- The expansion of `scroll.v` (spec R143). -/
def scrollVOps (c : Config) (width : Byte) (text : List Byte) (delay reps : Word) : List MicroOp :=
  passes reps.toNat (pairPass (verticalLines c width.toNat text) delay.toNat)

end Sys2Proof.Machine
end

