-- ==== Sys2Proof/Syntax.lean ====
section
/-! DEFINITION. The instructions: one constructor for each row of spec/opcode_table.json, eleven host requests and the four
expander bytes. -/

namespace Sys2Proof

/-- The rows of the opcode table. The first eleven are host requests (spec R69), executed by the sequencer; the last four
are the expander bytes (spec R62), executed by the expander as the bytes of a transaction reach it (R41, R49; log 22). -/
inductive Instr where
  /-- `init ADDR, BLFLAG, WIDTH` (spec R120). -/
  | init (addr : Addr) (flag : Bool) (width : Byte)
  /-- `cmd BYTE` (spec R105). -/
  | cmd (v : Byte)
  /-- `char BYTE` (spec R106). -/
  | char (v : Byte)
  /-- `cursor LINE, POS` (spec R122). -/
  | cursor (line pos : Byte)
  /-- `write TEXT, LINE, POS` (spec R123). -/
  | write (text : List Byte) (line pos : Byte)
  /-- `clear` (spec R124). -/
  | clear
  /-- `backlight STATE` (spec R125). -/
  | backlight (on : Bool)
  /-- `scroll.l TEXT, LINE, DELAY_US, REPEAT` (spec R141). -/
  | scrollL (text : List Byte) (line : Byte) (delay passes : Word)
  /-- `scroll.r TEXT, LINE, DELAY_US, REPEAT` (spec R142). -/
  | scrollR (text : List Byte) (line : Byte) (delay passes : Word)
  /-- `scroll.v TEXT, DELAY_US, REPEAT` (spec R143). -/
  | scrollV (text : List Byte) (delay passes : Word)
  /-- `cgram LOC, [B0, ..., B7]` (spec R160). -/
  | cgram (loc : Byte) (rows : List Byte)
  /-- `CMD_EH`: command frame, enable high, nibble `d` on bits 7:4, backlight line `blk` (spec R62). -/
  | cmdEh (d : BitVec 4) (blk : Bool)
  /-- `CMD_EL`: command frame, enable low (spec R62). -/
  | cmdEl (d : BitVec 4) (blk : Bool)
  /-- `DAT_EH`: data frame, enable high (spec R62). -/
  | datEh (d : BitVec 4) (blk : Bool)
  /-- `DAT_EL`: data frame, enable low (spec R62). -/
  | datEl (d : BitVec 4) (blk : Bool)
  deriving DecidableEq, Repr

/-- Is the row a host request (and not an expander byte)? -/
def Instr.isRequest : Instr → Bool
  | .init .. | .cmd _ | .char _ | .cursor .. | .write .. | .clear | .backlight _ => true
  | .scrollL .. | .scrollR .. | .scrollV .. | .cgram .. => true
  | .cmdEh .. | .cmdEl .. | .datEh .. | .datEl .. => false

end Sys2Proof
end

