-- ==== Sys2Proof/Machine/State.lean ====
section
/-! DEFINITION. The state of the machine, its faults and refusals, and the state right after reset. -/

namespace Sys2Proof.Machine

/-- Why a step stops with a fault. The spec gives the block no fault (93_implementation_defined.md: "No behaviour of this
block is `fault` or `stuck`"), and no state that a run reaches raises this one. -/
inductive Fault where
  /-- Raised by the expander's step when the next byte on the wire has `RW` = 1: the block never sends such a byte (spec
  R62), and what the controller does in a read cycle is in no source. Safe (log 10). -/
  | readWriteHigh
  deriving DecidableEq, Repr

/-- Why an instruction has no meaning. -/
inductive Refusal where
  /-- Raised by an arm of `exec` whose instruction is not modelled; no arm is. Safe. -/
  | notModelled (mnemonic : String)
  deriving DecidableEq, Repr

/-- The state. The first block is the block's own state, which spec R20 says is exactly `ADDR`, `BL`, `WIDTH` and `SEQ`;
then what the spec names outside the block; then the inputs; then the parameters and the model's own
counters. -/
structure State where
  /-- `ADDR` (spec R23). -/
  addr : Addr
  /-- `BL` (spec R24), read through `State.readBl` and written through `State.writeBl`. -/
  bl : Byte
  /-- `WIDTH` (spec R26). -/
  width : Byte
  /-- `SEQ.phase` (spec R25). -/
  phase : Phase
  /-- `SEQ.Q` (spec R25), the next micro-operation first. -/
  q : List MicroOp
  /-- `SEQ.cur` (spec R25), the request in progress. -/
  cur : Option Instr
  /-- The output latches of the expanders (spec R28, R41). -/
  mem : Memory
  /-- The bytes of the successful transaction in progress that the expander has not taken yet (spec R49; log 6). -/
  wire : List Byte
  /-- While a successful transaction is in progress, what the backlight line showed when it was issued and still shows (spec
  R252; log 25). -/
  lineHeld : Option Bool
  /-- The nibbles handed to the controller, in order (spec R104; log 9). -/
  pulses : List Pulse
  /-- The trace (spec R12), the first event first. -/
  trace : List Event
  /-- The time of the timer interface, in microseconds since reset (spec R213; log 14). -/
  now : Nat
  /-- What the host offers on its port, the request offered now first (spec R107, R216; log 1). -/
  offers : List Request
  /-- The outcomes the bus interface will give to the next transactions (spec R204; log 4). -/
  busIn : List BusOutcome
  /-- The parameters (spec R6); no step changes them. -/
  cfg : Config
  /-- The model's own: counts the free values taken by waits and transactions (log 14). -/
  draws : Nat
  /-- The model's own: counts the steps, each of which takes a free time (log 14). -/
  steps : Nat
  deriving DecidableEq, Repr

/-- The state right after reset for the parameters `c` (spec R240): the registers loaded, the queue holding
`init_body(RST_BL)`, the phase `RESET_INIT`; nothing known of the expanders (R242), nothing recorded, nothing offered. -/
def State.resetWith (c : Config) : State where
  addr := c.rstAddr
  bl := pInitBl c c.rstBl
  width := c.rstWidth
  phase := .resetInit
  q := initBody c.rstBl
  cur := none
  mem := []
  wire := []
  lineHeld := none
  pulses := []
  trace := []
  now := 0
  offers := []
  busIn := []
  cfg := c
  draws := 0
  steps := 0

/-- The state right after reset with the default parameters (spec R6, R240). -/
def State.reset : State := State.resetWith {}

end Sys2Proof.Machine
end

