-- ==== Sys2Proof/Machine/Ops.lean ====
section
/-! DEFINITION. The shared operations: register reads and writes, the trace, the responses (the abort of spec R205 is the
block's "taking an exception"; there is no return from one, R210), the micro-operations (R100 to R103), the acceptance of a
request (R107), the backlight line (R252, R126), one write of the expander port (R41, R104) and the time of a step (R255). -/

namespace Sys2Proof.Machine

/-! ### Registers -/

/-- Write `ADDR` (spec R23). -/
def State.writeAddr (s : State) (a : Addr) : State := { s with addr := a }

/-- Write `WIDTH` (spec R26). -/
def State.writeWidth (s : State) (w : Byte) : State := { s with width := w }

/-- Write `BL`: only bit 3 exists, the other bits are hard-wired 0 (spec R24). -/
def State.writeBl (s : State) (m : Byte) : State := { s with bl := m &&& blBits }

/-- Read `BL`: the hard-wired bits read 0 (spec R24). -/
def State.readBl (s : State) : Byte := s.bl &&& blBits

/-! ### The queue, the wire and the request port -/

/-- The queue is now `ops` (spec R107, "Q <- rest"). -/
def State.setQ (s : State) (ops : List MicroOp) : State := { s with q := ops }

/-- The bytes left on the wire are now `bytes`. The transaction ends with the last of them, and the backlight line is then held
no longer (spec R252). -/
def State.setWire (s : State) (bytes : List Byte) : State :=
  { s with wire := bytes, lineHeld := if bytes = [] then none else s.lineHeld }

/-- The requests offered are now `rs`. -/
def State.setOffers (s : State) (rs : List Request) : State := { s with offers := rs }

/-! ### Trace and responses -/

/-- Record an event (spec R12). -/
def State.emit (s : State) (e : Event) : State := { s with trace := s.trace ++ [e] }

/-- Answer a request that is not accepted: record `R(resp)` and stay as before (spec R107, R206). -/
def State.refuse (s : State) (resp : Response) : State := s.emit (.r resp)

/-- `Done(resp)` (spec R11, R107): the request in progress ends with `resp`; the phase is `IDLE`, no request in progress. -/
def State.done (s : State) (resp : Response) : State := { s.emit (.r resp) with phase := .idle, cur := none }

/-- `raise E(info)` (spec R11, R205): the rest of the queue is dropped and the request ends with the error. Registers keep
what was written (R206). -/
def State.raise (s : State) (e : Response) : State := (s.setQ []).done e

/-- Accept a request (spec R107): its expansion becomes the queue, the phase `BUSY`. The prologue, where a request has one,
has run before. -/
def State.accept (s : State) (i : Instr) (ops : List MicroOp) : State :=
  { s with q := ops, cur := some i, phase := .busy }

/-! ### The expander's lines -/

/-- What the expander at `ADDR` holds: the latch where it is known, a free value where it is not (spec R28, R242; log 8). -/
def State.outLatch (s : State) : Byte :=
  (s.mem.read s.addr.toNat).getD (Config.freeLatch s.addr.toNat s.draws)

/-- What the backlight line shows. A change of `BL` shows at the end of the transaction that carries it: until its last byte has
been taken the line shows what it showed when the transaction was issued (spec R252; log 25). Otherwise it shows the backlight
bit of the latch (R28). No step but the issue of a transaction reads it. -/
def State.backlightLine (s : State) : Bool := s.lineHeld.getD (lineBlk s.outLatch)

/-- Is the backlight visibly lit (spec R126)? As the wiring has it: by the expander's backlight line, or whatever the lines are
(log 24). No step reads it. -/
def State.backlightLit (s : State) : Bool :=
  match s.cfg.wiring with
  | .line => s.backlightLine
  | .fixed lit => lit

/-! ### Micro-operations -/

/-- `SETBL(m)` (spec R103): no bus activity, no event. -/
def State.setbl (s : State) (m : Byte) : State := s.writeBl m

/-- `WAIT(d)` (spec R102): records `W(d)` and holds the sequencer for `d` microseconds and a free overrun; `WAIT(0)` holds
for no time (log 14). -/
def State.wait (s : State) (d : Nat) : State :=
  { s.emit (.w d) with
    now := if d = 0 then s.now else s.now + d + Config.freeOverrun s.draws
    draws := s.draws + 1 }

/-- A free outcome of the kinds there are (spec R204): the free value where the parameter has its kind. Every outcome that the
parameter admits is the one of some free value (log 4). -/
def State.drawOutcome (s : State) : BusOutcome :=
  if admits s.cfg (Config.freeOutcome s.draws) then Config.freeOutcome s.draws else .err .timeout

/-- The outcome of the next transaction, supplied by the bus interface (spec R204): the one it has named, or a free one where it
has named none, or one of a kind that there is not (log 4). -/
def State.nextOutcome (s : State) : BusOutcome :=
  match s.busIn with
  | [] => s.drawOutcome
  | o :: _ => if admits s.cfg o then o else s.drawOutcome

/-- The transaction that `XFER(rs, v)` makes has been issued: its outcome is taken, its event recorded, its time passed
(spec R101). -/
def State.transact (s : State) (rs : Bool) (v : Byte) : State :=
  { s.emit (.x s.addr (frame rs v s.readBl) s.nextOutcome) with
    busIn := s.busIn.tail
    now := s.now + Config.freeDuration s.draws
    draws := s.draws + 1 }

/-- After a failed transaction nothing is known of the latch at `ADDR`, and any nibbles may have been handed to the
controller (spec R206, D7; log 7). -/
def State.loseExpander (s : State) : State :=
  { s with mem := s.mem.forget s.addr.toNat, pulses := s.pulses ++ Config.freePulses s.draws }

/-- A transaction that the bus takes begins: its bytes are on the wire, and the backlight line keeps showing `shown` (spec
R252). -/
def State.issue (s : State) (shown : Bool) (bytes : List Byte) : State :=
  { s with wire := bytes, lineHeld := some shown }

/-- `XFER(rs, v)` (spec R100, R101): the frame is formed from the current `BL` and sent to `ADDR`. A successful transaction
puts its bytes on the wire, where the expander takes them before the sequencer goes on (R49, R52; log 6). A failed one
raises `E_BUS(k)` at once (R205). -/
def State.xfer (s : State) (rs : Bool) (v : Byte) : State :=
  match s.nextOutcome with
  | .ok => (s.transact rs v).issue s.backlightLine (frame rs v s.readBl)
  | .err k => ((s.transact rs v).loseExpander).raise (.eBus k)

/-- Run one micro-operation (spec R107). -/
def State.runMicro (s : State) : MicroOp → State
  | .setbl m => s.setbl m
  | .xfer rs v => s.xfer rs v
  | .wait d => s.wait d

/-- One write of the expander port (spec R41, R49): the latch holds the byte, and if that lowers the enable line the
controller latches the nibble now presented, with its register-select (R104; log 9). What the backlight line shows meanwhile is
`State.backlightLine`. -/
def State.expanderWrite (s : State) (b : Byte) : State :=
  { s with
    mem := s.mem.write s.addr.toNat b
    pulses := if !lineE b && lineE s.outLatch then s.pulses ++ [⟨lineRs b, lineD b⟩] else s.pulses }

/-! ### Time -/

/-- The time that a step takes besides what its micro-operation lasts: a free number of microseconds, so that no step has an upper
bound (spec R255, D30; log 14). -/
def State.pass (s : State) : State :=
  { s with now := s.now + Config.freeStepTime s.steps, steps := s.steps + 1 }

end Sys2Proof.Machine
end

