-- ==== Sys2Proof/Machine/Cgram.lean ====
section
/-! DEFINITION. Custom glyph programming (43_cgram_ops.md). -/

namespace Sys2Proof.Machine

/-- `cgram LOC, [B0, ..., B7]` (spec R160). A charmap that has not eight bytes gives `E_ILLEGAL`, and that check comes first
(R208; log 3); then a location above 7 gives `E_RANGE(loc)`, before any register write, bus event or wait. -/
def execCgram (loc : Byte) (rows : List Byte) (s : State) : Host.Outcome State Fault Refusal :=
  if rows.length ≠ 8 then .next (s.refuse .eIllegal)
  else if 7 < loc.toNat then .next (s.refuse (.eRange loc))
  else .next (s.accept (.cgram loc rows) (cgramOps loc rows))

end Sys2Proof.Machine
end

