-- ==== Sys2Proof/Machine/Display.lean ====
section
/-! DEFINITION. Initialisation, cursor, write, clear and backlight (41_display_ops.md). -/

namespace Sys2Proof.Machine

/-- `init ADDR, BLFLAG, WIDTH` (spec R120). A width of 0 is refused with `E_ILLEGAL` (R203; log 3). The prologue writes
`ADDR`, `WIDTH` and `BL`. -/
def execInit (addr : Addr) (flag : Bool) (width : Byte) (s : State) : Host.Outcome State Fault Refusal :=
  if width = 0 then .next (s.refuse .eIllegal)
  else .next ((((s.writeAddr addr).writeWidth width).writeBl (pInitBl s.cfg flag)).accept
    (.init addr flag width) (initBody flag))

/-- `cursor LINE, POS` (spec R122). -/
def execCursor (line pos : Byte) (s : State) : Host.Outcome State Fault Refusal :=
  .next (s.accept (.cursor line pos) (send false (ddCommand line pos)))

/-- `write TEXT, LINE, POS` (spec R123). -/
def execWrite (text : List Byte) (line pos : Byte) (s : State) : Host.Outcome State Fault Refusal :=
  .next (s.accept (.write text line pos) (writeOps text line pos))

/-- `clear` (spec R124). -/
def execClear (s : State) : Host.Outcome State Fault Refusal :=
  .next (s.accept .clear clearOps)

/-- `backlight STATE` (spec R125). -/
def execBacklight (on : Bool) (s : State) : Host.Outcome State Fault Refusal :=
  .next (s.accept (.backlight on) (backlightOps on))

end Sys2Proof.Machine
end

