-- ==== Sys2Proof/WellFormed.lean ====
section
/-! DEFINITION. Well-formed instructions: the operand checks that the operand types do not already make. -/

namespace Sys2Proof

/-- The operands that the encoding admits (spec R72, R73): `init` has a width in 1..255 and `cgram` has exactly eight rows.
Every other limit is the operand's type (a 7-bit address, 8-bit lines and positions, 32-bit delays and pass counts, a
4-bit nibble). A glyph location above 7 IS well-formed: it is encodable and gives `E_RANGE` (R160). -/
def Instr.wellFormed : Instr → Bool
  | .init _ _ width => width != 0
  | .cgram _ rows => rows.length == 8
  | .cmd _ | .char _ | .cursor _ _ | .write _ _ _ | .clear | .backlight _ => true
  | .scrollL _ _ _ _ | .scrollR _ _ _ _ | .scrollV _ _ _ => true
  | .cmdEh _ _ | .cmdEl _ _ | .datEh _ _ | .datEl _ _ => true

/-- `Instr.wellFormed` as a proposition. -/
abbrev Instr.wf (i : Instr) : Prop := i.wellFormed = true

end Sys2Proof
end

