-- ==== Sys2Proof/Decode.lean ====
section
/-! DEFINITION. Decoding of host requests (spec R68 to R74) and of expander bytes (spec R60, R62), total and rejecting by
name, and the encoder written from the same tables. -/

namespace Sys2Proof

/-- What an instruction looks like to its decoder: a request on the host port, or a byte on the expander port. -/
inductive Encoded where
  | request (r : Request)
  | byte (b : Byte)
  deriving DecidableEq, Repr

/-- Why a decoder refuses (spec R73 for requests; R62 for bytes). -/
inductive DecodeError where
  /-- `OP` is 0xB..0xF. -/
  | reservedOpcode
  /-- A bit of the reserved field [27:25] is 1. -/
  | reservedBits
  /-- A field that spec R72 marks 0 is not 0 (for `init` this covers `C[7]` too). -/
  | unusedField
  /-- A payload on an opcode that takes none. -/
  | payloadNotEmpty
  /-- An expander byte with `RW` = 1: the patterns 0bx1x, which the block never sends. -/
  | readWriteHigh
  deriving DecidableEq, Repr

/-! ### Header fields (spec R68) -/

/-- `OP`, bits [31:28]. -/
def Request.op (r : Request) : BitVec 4 := r.w0.extractLsb' 28 4
/-- The reserved field, bits [27:25]. -/
def Request.reserved (r : Request) : BitVec 3 := r.w0.extractLsb' 25 3
/-- `S`, bit [24]. -/
def Request.s (r : Request) : Bool := r.w0.getLsbD 24
/-- `A`, bits [23:16]. -/
def Request.a (r : Request) : Byte := r.w0.extractLsb' 16 8
/-- `B`, bits [15:8]. -/
def Request.b (r : Request) : Byte := r.w0.extractLsb' 8 8
/-- `C`, bits [7:0]. -/
def Request.c (r : Request) : Byte := r.w0.extractLsb' 0 8

/-- Spec R73's checks of one row, in the order reserved bits, fields marked 0, payload: `zero` says that every field the
row marks 0 is 0, `takesPayload` that the row takes a payload. -/
def Request.checked (r : Request) (zero takesPayload : Bool) (i : Instr) : Except DecodeError Instr :=
  if r.reserved ≠ 0 then .error .reservedBits
  else if zero = false then .error .unusedField
  else if takesPayload = false ∧ r.payload ≠ [] then .error .payloadNotEmpty
  else .ok i

/-- The request decoder (spec R74): it reads `OP`, and for opcodes 0x7, 0x8 and 0x9 the two extension words. Each line is a
row of spec R72. An `init` with `A` = 0 and a `cgram` with a payload of another length than 8 match their rows of the
opcode table, which mask neither; their meanings refuse them (log 3). -/
def decodeRequest (r : Request) : Except DecodeError Instr :=
  match r.op.toNat with
  | 0x0 => r.checked (r.b == 0 && !r.w0.getLsbD 7) false (.init (r.w0.extractLsb' 0 7) r.s r.a)
  | 0x1 => r.checked (!r.s && r.a == 0 && r.b == 0) false (.cmd r.c)
  | 0x2 => r.checked (!r.s && r.a == 0 && r.b == 0) false (.char r.c)
  | 0x3 => r.checked (!r.s && r.a == 0) false (.cursor r.b r.c)
  | 0x4 => r.checked (!r.s && r.a == 0) true (.write r.payload r.b r.c)
  | 0x5 => r.checked (!r.s && r.a == 0 && r.b == 0 && r.c == 0) false .clear
  | 0x6 => r.checked (r.a == 0 && r.b == 0 && r.c == 0) false (.backlight r.s)
  | 0x7 => r.checked (!r.s && r.a == 0 && r.c == 0) true (.scrollL r.payload r.b r.w1 r.w2)
  | 0x8 => r.checked (!r.s && r.a == 0 && r.c == 0) true (.scrollR r.payload r.b r.w1 r.w2)
  | 0x9 => r.checked (!r.s && r.a == 0 && r.b == 0 && r.c == 0) true (.scrollV r.payload r.w1 r.w2)
  | 0xA => r.checked (!r.s && r.a == 0 && r.b == 0) true (.cgram r.c r.payload)
  | _ => .error .reservedOpcode

/-- The expander-byte decoder (spec R60, R62): bits [2:0] = E RW RS give the kind, [7:4] the nibble, [3] the backlight
line. -/
def decodeByte (b : Byte) : Except DecodeError Instr :=
  let d : BitVec 4 := b.extractLsb' 4 4
  match b.getLsbD 1, b.getLsbD 0, b.getLsbD 2 with
  | true, _, _ => .error .readWriteHigh
  | false, false, true => .ok (.cmdEh d (b.getLsbD 3))
  | false, false, false => .ok (.cmdEl d (b.getLsbD 3))
  | false, true, true => .ok (.datEh d (b.getLsbD 3))
  | false, true, false => .ok (.datEl d (b.getLsbD 3))

/-- The decoder. -/
def decode : Encoded → Except DecodeError Instr
  | .request r => decodeRequest r
  | .byte b => decodeByte b

/-! ### The encoder -/

/-- The header word of spec R68, its reserved field 0. -/
def header (op : BitVec 4) (s : Bool) (a b c : Byte) : Word :=
  op ++ (0#3 ++ (BitVec.ofBool s ++ (a ++ (b ++ c))))

/-- An expander byte of spec R60 from its fields D, BLK, E and RS, with RW held 0. -/
def expanderByte (d : BitVec 4) (blk e rs : Bool) : Byte :=
  d ++ (BitVec.ofBool blk ++ (BitVec.ofBool e ++ (0#1 ++ BitVec.ofBool rs)))

/-- The encoder, from the rows of spec R72 and R62. -/
def encode : Instr → Encoded
  | .init addr flag width => .request { w0 := header 0x0 flag width 0 (0#1 ++ addr) }
  | .cmd v => .request { w0 := header 0x1 false 0 0 v }
  | .char v => .request { w0 := header 0x2 false 0 0 v }
  | .cursor line pos => .request { w0 := header 0x3 false 0 line pos }
  | .write text line pos => .request { w0 := header 0x4 false 0 line pos, payload := text }
  | .clear => .request { w0 := header 0x5 false 0 0 0 }
  | .backlight on => .request { w0 := header 0x6 on 0 0 0 }
  | .scrollL text line delay passes =>
    .request { w0 := header 0x7 false 0 line 0, w1 := delay, w2 := passes, payload := text }
  | .scrollR text line delay passes =>
    .request { w0 := header 0x8 false 0 line 0, w1 := delay, w2 := passes, payload := text }
  | .scrollV text delay passes =>
    .request { w0 := header 0x9 false 0 0 0, w1 := delay, w2 := passes, payload := text }
  | .cgram loc rows => .request { w0 := header 0xA false 0 0 loc, payload := rows }
  | .cmdEh d blk => .byte (expanderByte d blk true false)
  | .cmdEl d blk => .byte (expanderByte d blk false false)
  | .datEh d blk => .byte (expanderByte d blk true true)
  | .datEl d blk => .byte (expanderByte d blk false true)

/-! ### One number for a whole encoding, as the opcode table numbers its bits -/

/-- `n` payload bytes of the number `w`, the lowest byte first. -/
def payloadBytes : Nat → Nat → List Byte
  | 0, _ => []
  | n + 1, w => BitVec.ofNat 8 w :: payloadBytes n (w / 256)

/-- The encoding whose bits are `w` in the opcode table's numbering (log 16). A row of at most 8 bits is an expander byte.
A longer one is a request: `W0` is bits [31:0], then `W1` and `W2` for opcodes 0x7, 0x8 and 0x9, then the payload bytes that
the remaining bits of the row hold; a `cgram` has eight payload bytes at least. -/
def tableWord (nbits w : Nat) : Encoded :=
  if nbits ≤ 8 then .byte (BitVec.ofNat 8 w)
  else
    match (w / 2 ^ 28) % 16 with
    | 0x7 | 0x8 | 0x9 =>
      .request { w0 := BitVec.ofNat 32 w, w1 := BitVec.ofNat 32 (w / 2 ^ 32), w2 := BitVec.ofNat 32 (w / 2 ^ 64),
                 payload := payloadBytes ((nbits - 96) / 8) (w / 2 ^ 96) }
    | 0xA => .request { w0 := BitVec.ofNat 32 w, payload := payloadBytes (max 8 ((nbits - 32) / 8)) (w / 2 ^ 32) }
    | _ => .request { w0 := BitVec.ofNat 32 w, payload := payloadBytes ((nbits - 32) / 8) (w / 2 ^ 32) }

/-- The instruction the decoder reads from an encoding whose bits are `w`, numbered as the opcode table numbers them. -/
def decodeTableWord (nbits w : Nat) : Option Instr :=
  match decode (tableWord nbits w) with
  | .ok i => some i
  | .error _ => none

end Sys2Proof
end

