-- ==== Sys2Proof/Machine/Expander.lean ====
section
/-! DEFINITION. The four expander bytes (spec R60, R62): each is one write of the expander port at `ADDR` (R41, R49), and
the enable-low ones end an enable pulse (R104; log 22). -/

namespace Sys2Proof.Machine

/-- `CMD_EH`: raises E with the nibble on the lines and RS = 0 (spec R104, b0 and b2 of a command frame). -/
def execCmdEh (d : BitVec 4) (blk : Bool) (s : State) : Host.Outcome State Fault Refusal :=
  .next (s.expanderWrite (expanderByte d blk true false))

/-- `CMD_EL`: lowers E with RS = 0 (spec R104, b1 and b3 of a command frame). -/
def execCmdEl (d : BitVec 4) (blk : Bool) (s : State) : Host.Outcome State Fault Refusal :=
  .next (s.expanderWrite (expanderByte d blk false false))

/-- `DAT_EH`: raises E with RS = 1 (spec R104, b0 and b2 of a data frame). -/
def execDatEh (d : BitVec 4) (blk : Bool) (s : State) : Host.Outcome State Fault Refusal :=
  .next (s.expanderWrite (expanderByte d blk true true))

/-- `DAT_EL`: lowers E with RS = 1 (spec R104, b1 and b3 of a data frame). -/
def execDatEl (d : BitVec 4) (blk : Bool) (s : State) : Host.Outcome State Fault Refusal :=
  .next (s.expanderWrite (expanderByte d blk false true))

end Sys2Proof.Machine
end

