-- ==== Sys2Proof/Machine/Primitives.lean ====
section
/-! DEFINITION. The two primitive requests (40_primitives.md). The meaning of a request is its acceptance (spec R107):
prologue, expansion, phase `BUSY`; the steps after it run the expansion (log 17). -/

namespace Sys2Proof.Machine

/-- `cmd BYTE` (spec R105). -/
def execCmd (v : Byte) (s : State) : Host.Outcome State Fault Refusal :=
  .next (s.accept (.cmd v) (send false v))

/-- `char BYTE` (spec R106). -/
def execChar (v : Byte) (s : State) : Host.Outcome State Fault Refusal :=
  .next (s.accept (.char v) (send true v))

end Sys2Proof.Machine
end

