-- ==== Sys2Proof/Machine/Scroll.lean ====
section
/-! DEFINITION. The scroll sequencers (42_scroll_ops.md). They read `WIDTH` when they are accepted (spec R140). -/

namespace Sys2Proof.Machine

/-- `scroll.l TEXT, LINE, DELAY_US, REPEAT` (spec R141). -/
def execScrollL (text : List Byte) (line : Byte) (delay reps : Word) (s : State) : Host.Outcome State Fault Refusal :=
  .next (s.accept (.scrollL text line delay reps) (scrollLOps s.cfg s.width text line delay reps))

/-- `scroll.r TEXT, LINE, DELAY_US, REPEAT` (spec R142). -/
def execScrollR (text : List Byte) (line : Byte) (delay reps : Word) (s : State) : Host.Outcome State Fault Refusal :=
  .next (s.accept (.scrollR text line delay reps) (scrollROps s.cfg s.width text line delay reps))

/-- `scroll.v TEXT, DELAY_US, REPEAT` (spec R143). -/
def execScrollV (text : List Byte) (delay reps : Word) (s : State) : Host.Outcome State Fault Refusal :=
  .next (s.accept (.scrollV text delay reps) (scrollVOps s.cfg s.width text delay reps))

end Sys2Proof.Machine
end

