-- ==== Sys2Proof/Machine/Dispatch.lean ====
section
/-! DEFINITION. What each instruction does: one arm per row of the opcode table. -/

namespace Sys2Proof.Machine

/-- The meaning of an instruction. For a request it is the acceptance step of spec R107 at a block that is `IDLE`; for an
expander byte it is one write of the expander port. -/
def exec (i : Instr) (s : State) : Host.Outcome State Fault Refusal :=
  match i with
  | .init addr flag width => Sys2Proof.Machine.execInit addr flag width s
  | .cmd v => Sys2Proof.Machine.execCmd v s
  | .char v => Sys2Proof.Machine.execChar v s
  | .cursor line pos => Sys2Proof.Machine.execCursor line pos s
  | .write text line pos => Sys2Proof.Machine.execWrite text line pos s
  | .clear => Sys2Proof.Machine.execClear s
  | .backlight on => Sys2Proof.Machine.execBacklight on s
  | .scrollL text line delay reps => Sys2Proof.Machine.execScrollL text line delay reps s
  | .scrollR text line delay reps => Sys2Proof.Machine.execScrollR text line delay reps s
  | .scrollV text delay reps => Sys2Proof.Machine.execScrollV text delay reps s
  | .cgram loc rows => Sys2Proof.Machine.execCgram loc rows s
  | .cmdEh d blk => Sys2Proof.Machine.execCmdEh d blk s
  | .cmdEl d blk => Sys2Proof.Machine.execCmdEl d blk s
  | .datEh d blk => Sys2Proof.Machine.execDatEh d blk s
  | .datEl d blk => Sys2Proof.Machine.execDatEl d blk s

end Sys2Proof.Machine
end

