-- ==== Sys2Proof/Machine/Sequencer.lean ====
section
/-! DEFINITION. The sequencer's step (spec R107), the expander's step (R49), and where an instruction stands that the next
step fetches. -/

namespace Sys2Proof.Machine

/-- A request `r` is taken from the port (spec R107): an illegal one is answered `E_ILLEGAL` with no other effect (R73),
any other has its meaning. -/
def takeRequest (r : Request) (s : State) : Host.Outcome State Fault Refusal :=
  match decodeRequest r with
  | .ok i => exec i s
  | .error _ => .next (s.refuse .eIllegal)

/-- A step in `IDLE` (spec R107): the request offered is taken. With none offered the block stays as it is (R256;
log 15); only the time of the step passes. -/
def idleStep (s : State) : Host.Outcome State Fault Refusal :=
  match s.offers with
  | [] => .next s
  | r :: rest => takeRequest r (s.setOffers rest)

/-- A step in `BUSY` or `RESET_INIT` (spec R107): the head of the queue is run, and an empty queue ends the request with
`OK`. -/
def queueStep (s : State) : Host.Outcome State Fault Refusal :=
  match s.q with
  | u :: rest => .next ((s.setQ rest).runMicro u)
  | [] => .next (s.done .ok)

/-- A step of the sequencer (spec R107). A request offered while the phase is not `IDLE` is not looked at (D19). -/
def sequencerStep (s : State) : Host.Outcome State Fault Refusal :=
  match s.phase with
  | .idle => idleStep s
  | .busy => queueStep s
  | .resetInit => queueStep s

/-- A step of the expander: it takes the byte `b` (spec R41, R49). A byte with `RW` = 1 stops the machine (log 10). -/
def expanderStep (b : Byte) (s : State) : Host.Outcome State Fault Refusal :=
  match decodeByte b with
  | .ok i => exec i s
  | .error _ => .fault .readWriteHigh

/-- Put a byte on the wire, before whatever is there. -/
def State.placeByte (s : State) (b : Byte) : State := { s with wire := b :: s.wire }

/-- Offer a request to a block that is `IDLE`, before whatever is offered: nothing on the wire, nothing in progress. -/
def State.placeRequest (s : State) (r : Request) : State :=
  { s with wire := [], lineHeld := none, phase := .idle, q := [], cur := none, offers := r :: s.offers }

/-- Place an encoding where the next step fetches it. -/
def State.place (s : State) : Encoded → State
  | .byte b => s.placeByte b
  | .request r => s.placeRequest r

end Sys2Proof.Machine
end

