-- ==== Sys2Proof/Machine/Step.lean ====
section
/-! DEFINITION. One step of the machine, and where it fetches. -/

namespace Sys2Proof.Machine

/-- One step. While bytes of a transaction are on the wire the expander takes the next one and the sequencer waits ("each
`XFER` completes ... before the next micro-operation starts", spec R52); otherwise the sequencer steps (R107). Every step
takes a free time (`State.pass`, R255). -/
def step (s : State) : Host.Outcome State Fault Refusal :=
  match s.wire with
  | b :: rest => expanderStep b (s.pass.setWire rest)
  | [] => sequencerStep s.pass

/-- `s` with the instruction whose bits are `w`, numbered as the opcode table numbers them, placed where the next step
fetches it (log 16). -/
def State.withFetchWord (s : State) (nbits w : Nat) : State := s.place (tableWord nbits w)

end Sys2Proof.Machine
end

