-- ==== Sys2Proof/Machine/Assembler.lean ====
section
/-! DEFINITION. The assembler notation of requests (spec R75) and its defaults (R76). No step of the machine uses it; it says
which request a written line stands for. -/

namespace Sys2Proof.Machine

/-! ### Defaults (spec R76, R6) -/

/-- `DEF_DELAY_H_US`: the default frame delay of the left and right scrolls. -/
def defDelayH : Word := 300000#32
/-- `DEF_DELAY_V_US`: the default frame delay of the vertical scroll. -/
def defDelayV : Word := 500000#32
/-- `DEF_REPEAT`: the default pass count. -/
def defRepeat : Word := 1#32

/-- A request as written, operands that may be left off as options (spec R75, R76). -/
inductive Written where
  | init (addr : Option Addr) (flag : Option Bool) (width : Option Byte)
  | cmd (v : Byte)
  | char (v : Byte)
  | cursor (line pos : Byte)
  | write (text : List Byte) (line pos : Option Byte)
  | clear
  | backlight (on : Bool)
  | scrollL (text : List Byte) (line : Byte) (delay reps : Option Word)
  | scrollR (text : List Byte) (line : Byte) (delay reps : Option Word)
  | scrollV (text : List Byte) (delay reps : Option Word)
  | cgram (loc : Byte) (rows : List Byte)
  deriving DecidableEq, Repr

/-- The request a written form stands for: an operand left off takes its default (spec R76). -/
def Written.toInstr : Written → Instr
  | .init addr flag width => .init (addr.getD 0x27#7) (flag.getD true) (width.getD 16#8)
  | .cmd v => .cmd v
  | .char v => .char v
  | .cursor line pos => .cursor line pos
  | .write text line pos => .write text (line.getD 1#8) (pos.getD 0#8)
  | .clear => .clear
  | .backlight on => .backlight on
  | .scrollL text line delay reps => .scrollL text line (delay.getD defDelayH) (reps.getD defRepeat)
  | .scrollR text line delay reps => .scrollR text line (delay.getD defDelayH) (reps.getD defRepeat)
  | .scrollV text delay reps => .scrollV text (delay.getD defDelayV) (reps.getD defRepeat)
  | .cgram loc rows => .cgram loc rows

/-! ### Tokens -/

/-- A token of a line. -/
inductive Token where
  | word (cs : List Char)
  | num (n : Nat)
  | text (bs : List Byte)
  | lbrack
  | rbrack
  | comma
  deriving DecidableEq, Repr

/-- The value of a hexadecimal digit, in either case (log 20). -/
def digitValue (c : Char) : Option Nat :=
  let n := c.toNat
  if 48 ≤ n ∧ n ≤ 57 then some (n - 48)
  else if 97 ≤ n ∧ n ≤ 102 then some (n - 87)
  else if 65 ≤ n ∧ n ≤ 70 then some (n - 55)
  else none

/-- The digits at the head of a line in the given base, and the rest. -/
def readDigits (base acc : Nat) : List Char → Nat × List Char
  | [] => (acc, [])
  | c :: cs =>
    match digitValue c with
    | some d => if d < base then readDigits base (base * acc + d) cs else (acc, c :: cs)
    | none => (acc, c :: cs)

/-- The rest of a quoted string, after its opening quote (code 34): one byte per ASCII character, `\xNN` (code 92, then `x`)
for any byte (spec R75). DESIGN CHOICE (log 20): R75 does not say what a backslash is that no `x` and two hexadecimal digits
follow; such a line is refused, and a backslash is written `\x5C`. Nor does it say how a double quote stands in a string: it
ends the string, and is written `\x22`. A string that does not end is refused. -/
def readString : List Char → Option (List Byte × List Char)
  | [] => none
  | c :: cs =>
    if c.toNat = 34 then some ([], cs)
    else if c.toNat = 92 then
      match cs with
      | 'x' :: h :: l :: rest =>
        match digitValue h, digitValue l, readString rest with
        | some x, some y, some (bs, rest') => some (BitVec.ofNat 8 (16 * x + y) :: bs, rest')
        | _, _, _ => none
      | _ => none
    else if c.toNat < 128 then (readString cs).map fun p => (BitVec.ofNat 8 c.toNat :: p.1, p.2)
    else none

/-- The characters of a mnemonic: letters and the full stop. -/
def isWordChar (c : Char) : Bool := c.isAlpha || c.toNat == 46

/-- The tokens of a line, with fuel. Spaces and tabs separate; a semicolon (code 59) starts a comment. What R75 leaves open here is
log 20. -/
def lex : Nat → List Char → Option (List Token)
  | _, [] => some []
  | 0, _ :: _ => none
  | n + 1, c :: cs =>
    if c.toNat = 32 ∨ c.toNat = 9 then lex n cs
    else if c.toNat = 59 then some []
    else if c.toNat = 44 then (lex n cs).map (Token.comma :: ·)
    else if c.toNat = 91 then (lex n cs).map (Token.lbrack :: ·)
    else if c.toNat = 93 then (lex n cs).map (Token.rbrack :: ·)
    else if c.toNat = 34 then
      match readString cs with
      | some (bs, rest) => (lex n rest).map (Token.text bs :: ·)
      | none => none
    else if c.isDigit then
      match c, cs with
      | '0', 'x' :: d :: rest =>
        if (digitValue d).isSome then
          let p := readDigits 16 0 (d :: rest)
          (lex n p.2).map (Token.num p.1 :: ·)
        else none
      | _, _ =>
        let p := readDigits 10 0 (c :: cs)
        (lex n p.2).map (Token.num p.1 :: ·)
    else if isWordChar c then
      (lex n (cs.dropWhile isWordChar)).map (Token.word (c :: cs.takeWhile isWordChar) :: ·)
    else none

/-! ### Operands -/

/-- An operand: a number or a text (a string or a byte list). -/
inductive Operand where
  | num (n : Nat)
  | text (bs : List Byte)
  deriving DecidableEq, Repr

/-- A number that must fit in `k` bits; one that does not is refused (log 20). -/
def fits (k n : Nat) : Option (BitVec k) := if n < 2 ^ k then some (BitVec.ofNat k n) else none

/-- The rest of a byte list, after its opening bracket and at least one number is due. -/
def readList : List Token → Option (List Byte × List Token)
  | .num n :: .rbrack :: ts => (fits 8 n).map fun b => ([b], ts)
  | .num n :: .comma :: ts =>
    match fits 8 n, readList ts with
    | some b, some (bs, rest) => some (b :: bs, rest)
    | _, _ => none
  | _ => none

/-- The operands of a line, separated by commas, with fuel. -/
def readOperands : Nat → List Token → Option (List Operand)
  | 0, _ => none
  | n + 1, ts =>
    let after : Operand → List Token → Option (List Operand) := fun o rest =>
      match rest with
      | [] => some [o]
      | .comma :: rest' => (readOperands n rest').map (o :: ·)
      | _ => none
    match ts with
    | .num k :: rest => after (.num k) rest
    | .text bs :: rest => after (.text bs) rest
    | .lbrack :: .rbrack :: rest => after (.text []) rest
    | .lbrack :: rest =>
      match readList rest with
      | some (bs, rest') => after (.text bs) rest'
      | none => none
    | _ => none

/-- A flag operand: 0 or 1. -/
def asFlag : Nat → Option Bool
  | 0 => some false
  | 1 => some true
  | _ => none

/-- An operand that may be left off, as a number of `k` bits. -/
def optional (k : Nat) : List Operand → Option (Option (BitVec k) × List Operand)
  | [] => some (none, [])
  | .num n :: os => (fits k n).map fun v => (some v, os)
  | .text _ :: _ => none

/-- Two optional numbers and nothing after them. -/
def twoOptional (k : Nat) (os : List Operand) : Option (Option (BitVec k) × Option (BitVec k)) :=
  match optional k os with
  | some (x, rest) =>
    match optional k rest with
    | some (y, []) => some (x, y)
    | _ => none
  | none => none

/-- A mnemonic of spec R75. -/
inductive Mnemonic where
  | init | cmd | char | cursor | write | clear | backlight | scrollL | scrollR | scrollV | cgram
  deriving DecidableEq, Repr

/-- The mnemonics as they are spelled. -/
def spellings : List (List Char × Mnemonic) := [
  (['i', 'n', 'i', 't'], .init), (['c', 'm', 'd'], .cmd), (['c', 'h', 'a', 'r'], .char),
  (['c', 'u', 'r', 's', 'o', 'r'], .cursor), (['w', 'r', 'i', 't', 'e'], .write), (['c', 'l', 'e', 'a', 'r'], .clear),
  (['b', 'a', 'c', 'k', 'l', 'i', 'g', 'h', 't'], .backlight),
  (['s', 'c', 'r', 'o', 'l', 'l', '.', 'l'], .scrollL), (['s', 'c', 'r', 'o', 'l', 'l', '.', 'r'], .scrollR),
  (['s', 'c', 'r', 'o', 'l', 'l', '.', 'v'], .scrollV), (['c', 'g', 'r', 'a', 'm'], .cgram)]

/-- The operands of `init`, each of which may be left off from the right. -/
def readInit : List Operand → Option Written
  | [] => some (.init none none none)
  | [.num a] => (fits 7 a).map fun a => .init (some a) none none
  | [.num a, .num f] =>
    match fits 7 a, asFlag f with
    | some a, some f => some (.init (some a) (some f) none)
    | _, _ => none
  | [.num a, .num f, .num w] =>
    match fits 7 a, asFlag f, fits 8 w with
    | some a, some f, some w => some (.init (some a) (some f) (some w))
    | _, _, _ => none
  | _ => none

/-- A request whose operands are exactly one number of `k` bits. -/
def oneNumber (k : Nat) (f : BitVec k → Written) : List Operand → Option Written
  | [.num v] => (fits k v).map f
  | _ => none

/-- A text, an 8-bit line and two optional 32-bit numbers: the horizontal scrolls. -/
def readScroll (f : List Byte → Byte → Option Word → Option Word → Written) : List Operand → Option Written
  | .text bs :: .num l :: os =>
    match fits 8 l, twoOptional 32 os with
    | some l, some p => some (f bs l p.1 p.2)
    | _, _ => none
  | _ => none

/-- The written request of a mnemonic with its operands (spec R75). DESIGN CHOICE (log 20): R75 writes the rows of `cgram` as a
list of eight bytes only; a quoted string there, or a list of another length, is accepted and its bytes are the payload, which
the block then refuses with `E_ILLEGAL` when they are not eight (R73). -/
def readRequest (m : Mnemonic) (os : List Operand) : Option Written :=
  match m with
  | .init => readInit os
  | .cmd => oneNumber 8 .cmd os
  | .char => oneNumber 8 .char os
  | .cursor =>
    match os with
    | [.num l, .num p] =>
      match fits 8 l, fits 8 p with
      | some l, some p => some (.cursor l p)
      | _, _ => none
    | _ => none
  | .write =>
    match os with
    | .text bs :: rest => (twoOptional 8 rest).map fun p => .write bs p.1 p.2
    | _ => none
  | .clear => if os = [] then some .clear else none
  | .backlight =>
    match os with
    | [.num f] => (asFlag f).map .backlight
    | _ => none
  | .scrollL => readScroll .scrollL os
  | .scrollR => readScroll .scrollR os
  | .scrollV =>
    match os with
    | .text bs :: rest => (twoOptional 32 rest).map fun p => .scrollV bs p.1 p.2
    | _ => none
  | .cgram =>
    match os with
    | [.num l, .text rows] => (fits 8 l).map fun l => .cgram l rows
    | _ => none

/-- The written request of one line. -/
def readLine (line : List Char) : Option Written :=
  match lex line.length line with
  | some (.word m :: ts) =>
    match spellings.lookup m, (if ts = [] then some [] else readOperands ts.length ts) with
    | some m, some os => readRequest m os
    | _, _ => none
  | _ => none

/-- Assemble one line: the request it stands for (spec R75, R76). -/
def assemble (line : List Char) : Option Encoded := (readLine line).map fun w => encode w.toInstr

end Sys2Proof.Machine
end

