-- ==== Sys2Proof/Safety.lean ====
section
/-! DEFINITION. The terms in which claims about runs are made: what a queue of micro-operations records and hands over when
every transaction succeeds, the time it waits at least, the encoding check of spec R73 read off the opcode table, the
invariant of the machine, and the end of a run. -/

namespace Sys2Proof.Machine

/-! ### What a queue does when the bus does not fail -/

/-- The events of a queue whose transactions all succeed, from the registers `a` = `ADDR` and `m` = `BL` (spec R100 to R103). -/
def successEvents (a : Addr) (m : Byte) : List MicroOp → List Event
  | [] => []
  | .setbl m' :: ops => successEvents a (m' &&& blBits) ops
  | .xfer rs v :: ops => .x a (frame rs v m) .ok :: successEvents a m ops
  | .wait d :: ops => .w d :: successEvents a m ops

/-- `BL` after a queue (spec R103). -/
def finalBl (m : Byte) : List MicroOp → Byte
  | [] => m
  | .setbl m' :: ops => finalBl (m' &&& blBits) ops
  | .xfer _ _ :: ops => finalBl m ops
  | .wait _ :: ops => finalBl m ops

/-- The controller bytes a queue sends, with the register each goes to, in order (spec R104). -/
def sentBytes : List MicroOp → List (Bool × Byte)
  | [] => []
  | .setbl _ :: ops => sentBytes ops
  | .xfer rs v :: ops => (rs, v) :: sentBytes ops
  | .wait _ :: ops => sentBytes ops

/-- The two nibbles of one controller byte, high nibble first (spec R45, R104). -/
def bytePulses (p : Bool × Byte) : List Pulse :=
  [⟨p.1, p.2.extractLsb' 4 4⟩, ⟨p.1, p.2.extractLsb' 0 4⟩]

/-- The controller bytes that a sequence of pulses makes in 4-bit mode, two pulses a byte, the register-select taken from
the second (spec R104). -/
def controllerBytes : List Pulse → List (Bool × Byte)
  | p :: p' :: ps => (p'.rs, p.nibble ++ p'.nibble) :: controllerBytes ps
  | _ => []

/-- How many transactions a queue makes. -/
def xferCount (ops : List MicroOp) : Nat := (sentBytes ops).length

/-- The sum of the waits of a queue, in microseconds (spec R254). -/
def waitTotal : List MicroOp → Nat
  | [] => 0
  | .setbl _ :: ops => waitTotal ops
  | .xfer _ _ :: ops => waitTotal ops
  | .wait d :: ops => d + waitTotal ops

/-- How many steps of the machine a queue takes: one each, and four more for the bytes of a successful transaction. -/
def stepCount : List MicroOp → Nat
  | [] => 0
  | .setbl _ :: ops => stepCount ops + 1
  | .xfer _ _ :: ops => stepCount ops + 5
  | .wait _ :: ops => stepCount ops + 1

/-- Does the event complete a request? -/
def Event.isResponse : Event → Bool
  | .r _ => true
  | .x .. | .w _ => false

/-- The trace decoder of spec R62: `(rs, v, m)` from a frame. -/
def decodeFrame : List Byte → Option (Bool × Byte × Byte)
  | [b0, _, b2, _] => some (lineRs b0, lineD b0 ++ lineD b2, b0 &&& 0x08#8)
  | _ => none

/-! ### The encoding check of spec R73, read off the opcode table's masks and matches -/

/-- The mask and match of an opcode's row in spec/opcode_table.json; none for a reserved opcode. -/
def tableRow : Nat → Option (Word × Word)
  | 0x0 => some (0xFE00FF80#32, 0x00000000#32)
  | 0x1 => some (0xFFFFFF00#32, 0x10000000#32)
  | 0x2 => some (0xFFFFFF00#32, 0x20000000#32)
  | 0x3 => some (0xFFFF0000#32, 0x30000000#32)
  | 0x4 => some (0xFFFF0000#32, 0x40000000#32)
  | 0x5 => some (0xFFFFFFFF#32, 0x50000000#32)
  | 0x6 => some (0xFEFFFFFF#32, 0x60000000#32)
  | 0x7 => some (0xFFFF00FF#32, 0x70000000#32)
  | 0x8 => some (0xFFFF00FF#32, 0x80000000#32)
  | 0x9 => some (0xFFFFFFFF#32, 0x90000000#32)
  | 0xA => some (0xFFFFFF00#32, 0xA0000000#32)
  | _ => none

/-- The payloads that spec R71 admits for an opcode. -/
def payloadLegal (op : Nat) (payload : List Byte) : Bool :=
  match op with
  | 0x4 | 0x7 | 0x8 | 0x9 => true
  | 0xA => payload.length == 8
  | _ => payload.isEmpty

/-- `illegal(r)` of spec R107: the conditions of R73. -/
def illegalRequest (r : Request) : Bool :=
  match tableRow (r.w0 >>> 28).toNat with
  | none => true
  | some (mask, pattern) =>
    r.w0 &&& mask != pattern
      || !payloadLegal (r.w0 >>> 28).toNat r.payload
      || ((r.w0 >>> 28).toNat == 0 && (r.w0 >>> 16) &&& 0xFF#32 == 0#32)

/-! ### Runs -/

/-- `n` steps of the machine. -/
def runs (n : Nat) (s : State) : Host.Outcome State Fault Refusal := Sys2Proof.core.run n s

/-- A block that is `IDLE` with nothing on the wire, to which the host offers the request that encodes `i`, and to which the
bus interface will give `oks` successes. -/
def State.offered (s : State) (i : Instr) (oks : Nat) : Prop :=
  s.phase = .idle ∧ s.wire = [] ∧ (∃ r rest, encode i = .request r ∧ s.offers = r :: rest) ∧
    ∃ more, s.busIn = List.replicate oks .ok ++ more

/-- From `s` a run reaches `t`, having recorded `events` and then the response `resp`, with the block `IDLE` again, nothing
left to do, the request taken from the port, the parameters as they were, and at least the waited time gone by. -/
def State.answered (s t : State) (events : List Event) (resp : Response) (waited : Nat) : Prop :=
  (∃ n, runs n s = .next t) ∧ t.trace = s.trace ++ events ++ [.r resp] ∧ s.now + waited ≤ t.now ∧
    t.phase = .idle ∧ t.q = [] ∧ t.wire = [] ∧ t.cur = none ∧ t.offers = s.offers.tail ∧ t.cfg = s.cfg

/-- The registers `ADDR`, `BL` and `WIDTH` are as they were. -/
def State.sameRegisters (s t : State) : Prop := t.addr = s.addr ∧ t.bl = s.bl ∧ t.width = s.width

/-- The events of one command (`rs = false`) or character (`rs = true`) that the bus takes (spec R105, R106, R108). -/
def sendEvents (a : Addr) (m : Byte) (rs : Bool) (v : Byte) : List Event := [.x a (frame rs v m) .ok, .w 2000]

/-- The events of a text written at a line, from position `pos` (spec R123). -/
def writeEvents (a : Addr) (m : Byte) (text : List Byte) (line pos : Byte) : List Event :=
  sendEvents a m false (ddCommand line pos) ++ text.flatMap (sendEvents a m true)

/-- The events of `init` (spec R120): the six initialisation commands with the mask `m`, the placeholder command with the
mask `m'` of the requested state, and the 50 ms wait. -/
def initEvents (a : Addr) (m m' : Byte) : List Event :=
  [0x33#8, 0x32#8, 0x28#8, 0x0C#8, 0x06#8, 0x01#8].flatMap (sendEvents a m false) ++
    sendEvents a m' false 0x00#8 ++ [.w 50000]

/-! ### The invariant -/

/-- `SETBL` operands are masks (spec R103), and every `XFER` is followed at once by the 2 ms wait (spec R108). -/
def settledQueue : List MicroOp → Bool
  | [] => true
  | .setbl m :: ops => (m == 0x00#8 || m == 0x08#8) && settledQueue ops
  | .xfer _ _ :: .wait d :: ops => d == tCmdUs && settledQueue ops
  | .xfer _ _ :: _ => false
  | .wait _ :: ops => settledQueue ops

/-- The bytes left on the wire never raise `RW` (spec R62), carry the backlight line of `BL` (spec R28), and end with `E`
low (spec R61). -/
def legalWire (bl : Byte) (wire : List Byte) : Prop :=
  (∀ b ∈ wire, lineRw b = false ∧ lineBlk b = lineBlk bl) ∧ (∀ b, wire.getLast? = some b → lineE b = false)

/-- The expanders between transactions: `RW` is low, and `E` is low but for the one now being written (spec R28). -/
def legalLatches (s : State) : Prop :=
  ∀ c ∈ s.mem, lineRw c.2 = false ∧ (lineE c.2 = true → s.wire ≠ [] ∧ c.1 = s.addr.toNat)

/-- Phase, request in progress and queue agree (spec R25): `BUSY` exactly when there is a request in progress, and nothing
left to do, nor on the wire, when `IDLE`. -/
def legalSeq (s : State) : Prop :=
  (s.phase = .busy ↔ s.cur ≠ none) ∧ (s.phase = .idle → s.q = [] ∧ s.wire = [])

/-- The backlight line is held exactly while bytes of a transaction are on the wire: the model's form of R252 (logs 6, 25). -/
def legalLine (s : State) : Prop := s.lineHeld = none ↔ s.wire = []

/-- The invariant of the machine. -/
structure State.Inv (s : State) : Prop where
  /-- Spec R24: "backlight mask is always exactly 0x08 or 0x00". -/
  bl : s.bl = 0x00#8 ∨ s.bl = 0x08#8
  /-- Spec R26: `WIDTH` is in 1..255. -/
  width : s.width ≠ 0
  /-- The latches keep their canonical form. -/
  mem : s.mem.wf
  seq : legalSeq s
  queue : settledQueue s.q = true
  wire : legalWire s.bl s.wire
  latches : legalLatches s
  line : legalLine s

/-- In a trace, every successful transaction is followed by a wait of 2 ms (spec R246), and every failed one by the response
`E_BUS` with the kind of its outcome (spec R205), with nothing between. -/
def settledTrace : List Event → Prop
  | [] => True
  | [_] => True
  | .x _ _ .ok :: e :: es => e = .w tCmdUs ∧ settledTrace (e :: es)
  | .x _ _ (.err k) :: e :: es => e = .r (.eBus k) ∧ settledTrace (e :: es)
  | .w _ :: e :: es => settledTrace (e :: es)
  | .r _ :: e :: es => settledTrace (e :: es)

/-- The trace is settled, and if it ends in a transaction, that succeeded and its 2 ms wait comes next. -/
def State.TraceInv (s : State) : Prop :=
  settledTrace s.trace ∧
    ∀ a bytes o, s.trace.getLast? = some (.x a bytes o) →
      o = .ok ∧ s.phase ≠ .idle ∧ ∃ ops, s.q = .wait tCmdUs :: ops

/-- The end of a run (spec R256): `IDLE`, the queue empty, no request offered. -/
def State.ended (s : State) : Prop := s.phase = .idle ∧ s.q = [] ∧ s.wire = [] ∧ s.offers = []

end Sys2Proof.Machine
end

