-- ==== Sys2Proof/Certificates/Slice0/Obligations.lean ====
section
/-! DEFINITION. The statements for the provers. Where a statement gives the state after a step, `s.pass` is `s` after the time of
the step (spec R255, log 14): StepRunsTheDecodedInstruction says what it changes. -/

open Sys2Proof Sys2Proof.Machine

/-! ### Reset -/

/-- Spec R240: reset loads the parameters and the initialisation body; the sequencer then runs the queue as it runs an
accepted request's; a later `init` repeats the loads with its own operands. -/
def Obligations.ResetLoadsTheConstructionParameters : Prop :=
  (∀ c : Config, (State.resetWith c).addr = c.rstAddr ∧ (State.resetWith c).width = c.rstWidth ∧
    (State.resetWith c).bl = pInitBl c c.rstBl ∧ (State.resetWith c).q = initBody c.rstBl ∧
    (State.resetWith c).phase = .resetInit) ∧
  (State.reset.addr = 0x27#7 ∧ State.reset.width = 16#8 ∧ State.reset.bl = 0x08#8) ∧
  (∀ s : State, s.wire = [] → (s.phase = .resetInit ∨ s.phase = .busy) →
    (∀ u ops, s.q = u :: ops → step s = .next ({ s.pass with q := ops }.runMicro u)) ∧
    (s.q = [] → step s = .next { s.pass with trace := s.trace ++ [.r .ok], cur := none, phase := .idle })) ∧
  (∀ (a : Addr) (f : Bool) (w : Byte) (s : State), w ≠ 0 →
    exec (.init a f w) s = .next { s with
      addr := a, width := w, bl := pInitBl s.cfg f, q := initBody f, cur := some (.init a f w), phase := .busy })

/-- Reset with legal parameters meets the invariant, and its trace is settled. That memory, wire, record of nibbles,
request in progress and held backlight line are empty at reset is the model's choice (logs 6, 8, 9, 13, 25), and not R240's. -/
def Obligations.ResetMeetsTheInvariant : Prop :=
  ∀ c : Config, c.wf → (State.resetWith c).Inv ∧ (State.resetWith c).TraceInv

/-- Spec R241: what a reset initialisation leaves when every transaction succeeds, whatever `P_INIT_BL` is. The spec marks
R241 as derived from R240. -/
def Obligations.ResetInitialisationEndsIdle : Prop :=
  ∀ (c : Config) (outcomes : List BusOutcome), ∃ n t,
    runs n { State.resetWith c with busIn := List.replicate 7 .ok ++ outcomes } = .next t ∧
    t.addr = c.rstAddr ∧ t.bl = (if c.rstBl then 0x08#8 else 0x00#8) ∧ t.width = c.rstWidth ∧
    t.phase = .idle ∧ t.q = [] ∧
    t.trace = initEvents c.rstAddr (pInitBl c c.rstBl) (if c.rstBl then 0x08#8 else 0x00#8) ++ [.r .ok]

/-! ### The sequencer -/

/-- Spec R107: one step of the sequencer, with nothing on the wire, in every case. Whichever it is, the step's own time passes
(`s.pass`; R255, log 14). -/
def Obligations.SequencerStepsAsDescribed : Prop :=
  ∀ s : State, s.wire = [] →
    (∀ r rest, s.phase = .idle → s.offers = r :: rest → illegalRequest r = true →
      step s = .next { s.pass with offers := rest, trace := s.trace ++ [.r .eIllegal] }) ∧
    (∀ r rest loc rows, s.phase = .idle → s.offers = r :: rest → illegalRequest r = false →
      decodeRequest r = .ok (.cgram loc rows) → 7 < loc.toNat →
      step s = .next { s.pass with offers := rest, trace := s.trace ++ [.r (.eRange loc)] }) ∧
    (∀ r rest i, s.phase = .idle → s.offers = r :: rest → illegalRequest r = false → decodeRequest r = .ok i →
      (∀ loc rows, i = .cgram loc rows → loc.toNat ≤ 7) →
      ∃ t, step s = .next t ∧ exec i { s.pass with offers := rest } = .next t ∧
        t.phase = .busy ∧ t.cur = some i ∧ t.offers = rest ∧ t.trace = s.trace) ∧
    (∀ u ops, s.phase ≠ .idle → s.q = u :: ops → step s = .next ({ s.pass with q := ops }.runMicro u)) ∧
    (s.phase ≠ .idle → s.q = [] →
      step s = .next { s.pass with trace := s.trace ++ [.r .ok], cur := none, phase := .idle })

/-- A step runs the decoded instruction: a request at an idle block, a byte on the wire. Around `exec` the step only takes the
request from the port, or the byte from the wire, with the last byte ends the hold of the backlight line (R252), and lets its own
free time pass, which changes the clock and the model's counter of steps (R255). That the bytes of a transaction go by one step
each is the model's choice (logs 6, 14, 22, 25). -/
def Obligations.StepRunsTheDecodedInstruction : Prop :=
  (∀ (s : State) (r : Request) (rest : List Request) (i : Instr), s.wire = [] → s.phase = .idle → s.offers = r :: rest →
    decodeRequest r = .ok i → step s = exec i { s.pass with offers := rest }) ∧
  (∀ (s : State) (b : Byte) (rest : List Byte) (i : Instr), s.wire = b :: rest → decodeByte b = .ok i →
    step s = exec i { s.pass with wire := rest, lineHeld := if rest = [] then none else s.lineHeld }) ∧
  (∀ s : State, ∃ time, s.pass = { s with now := time, steps := s.steps + 1 } ∧ s.now ≤ time)

/-- Placing an instruction by its table number makes it the next one to run. The placing is the model's convention (log
16). -/
def Obligations.PlacedWordRunsNext : Prop :=
  ∀ (s : State) (nbits w : Nat) (i : Instr), decodeTableWord nbits w = some i →
    step (s.withFetchWord nbits w) =
      if i.isRequest then exec i { s.pass with wire := [], lineHeld := none, phase := .idle, q := [], cur := none }
      else exec i { s.pass with lineHeld := if s.wire = [] then none else s.lineHeld }

/-- Spec R243, R107 (D19), R54: while the reset initialisation or a request runs, nothing is taken from the request port: a
request offered waits there. That a transaction may still be on the wire in a step of its own is the model's choice (log 6).
-/
def Obligations.OffersWaitWhileTheBlockIsBusy : Prop :=
  ∀ s t : State, s.phase ≠ .idle ∨ s.wire ≠ [] → step s = .next t → t.offers = s.offers

/-- Spec R256: the end of a run is stable: only time passes. That an idle block with nothing offered takes a step at all is the
model's choice (log 15). -/
def Obligations.EndOfRunIsStable : Prop :=
  ∀ s : State, s.ended → ∃ time, step s = .next { s with now := time, steps := s.steps + 1 } ∧ s.now ≤ time

/-! ### Micro-operations -/

/-- Spec R103: `SETBL`. The second part says that it stands only in the expansions of `init` and `backlight`; the last, that a
later bus error does not undo it. -/
def Obligations.SetblWritesTheMaskAndNothingElse : Prop :=
  (∀ (s : State) (m : Byte), m = 0x00#8 ∨ m = 0x08#8 → s.runMicro (.setbl m) = { s with bl := m }) ∧
  (∀ (i : Instr) (s t : State) (m : Byte), exec i s = .next t → .setbl m ∈ t.q → .setbl m ∉ s.q →
    (m = 0x00#8 ∨ m = 0x08#8) ∧ ((∃ a f w, i = .init a f w) ∨ ∃ on, i = .backlight on)) ∧
  (∀ (s : State) (rs : Bool) (v : Byte) (k : BusErrorKind), s.nextOutcome = .err k →
    (s.runMicro (.xfer rs v)).bl = s.bl)

/-- Spec R102: `WAIT(d)` records `W(d)` and lets at least `d` microseconds pass; `WAIT(0)` holds for no time. Everything else
but the counter of free values is as before. The overrun is a free value (log 14). -/
def Obligations.WaitHoldsAtLeastItsOperand : Prop :=
  ∀ (s : State) (d : Nat), ∃ time,
    s.runMicro (.wait d) = { s with trace := s.trace ++ [.w d], now := time, draws := s.draws + 1 } ∧
    s.now + d ≤ time ∧ (d = 0 → time = s.now)

/-- Spec R205, R202, R206: an `XFER` whose outcome is `Err(k)`, all in one step. `ADDR`, `BL`, `WIDTH` and the parameters
are kept; what is known of the latch at `ADDR` is lost (R206, R28; log 7), every other latch is kept (log 21). -/
def Obligations.FailedTransactionAbortsTheRequest : Prop :=
  ∀ (s : State) (rs : Bool) (v : Byte) (ops : List MicroOp) (k : BusErrorKind),
    s.wire = [] → s.phase ≠ .idle → s.q = .xfer rs v :: ops → s.nextOutcome = .err k →
    ∃ t, step s = .next t ∧
      t.trace = s.trace ++ [.x s.addr (frame rs v s.readBl) (.err k), .r (.eBus k)] ∧
      t.q = [] ∧ t.phase = .idle ∧ t.cur = none ∧ t.wire = [] ∧
      s.sameRegisters t ∧ t.cfg = s.cfg ∧ t.offers = s.offers ∧ s.now ≤ t.now ∧
      t.mem.read s.addr.toNat = none ∧ ∀ a, a ≠ s.addr.toNat → t.mem.read a = s.mem.read a

/-- Spec R49, R101, R104, R28: a successful transaction. Five steps later its event stands in the trace, the expander holds the
frame's last byte, the controller has been handed the two nibbles of `v`, and the sequencer stands at the next
micro-operation. That each byte takes one step is the model's choice (log 6). -/
def Obligations.SuccessfulTransactionHandsOverOneByte : Prop :=
  ∀ (s : State) (rs : Bool) (v : Byte) (ops : List MicroOp),
    s.wire = [] → s.phase ≠ .idle → s.q = .xfer rs v :: ops → s.nextOutcome = .ok →
    ∃ t, runs 5 s = .next t ∧
      t.trace = s.trace ++ [.x s.addr (frame rs v s.readBl) .ok] ∧
      t.pulses = s.pulses ++ [⟨rs, v.extractLsb' 4 4⟩, ⟨rs, v.extractLsb' 0 4⟩] ∧
      (∃ b, (frame rs v s.readBl).getLast? = some b ∧ t.mem.read s.addr.toNat = some b ∧ lineE b = false ∧
        lineBlk b = lineBlk s.bl) ∧
      (∀ a, a ≠ s.addr.toNat → t.mem.read a = s.mem.read a) ∧
      t.q = ops ∧ t.wire = [] ∧ t.phase = s.phase ∧ t.cur = s.cur ∧ t.offers = s.offers ∧ t.cfg = s.cfg ∧
      t.busIn = s.busIn.tail ∧
      s.sameRegisters t ∧ s.now ≤ t.now

/-- Spec R104, R49: a successful transaction byte by byte. The expander's outputs step through b0, b1, b2, b3: b0 and b2 raise the
enable line and hand nothing over, b1 and b3 lower it and hand over the nibble they hold, with the register-select. That
one step of the model passes for each byte is the model's choice (log 6). -/
def Obligations.ExpanderStepsThroughTheFrame : Prop :=
  ∀ (s : State) (rs : Bool) (v : Byte) (ops : List MicroOp),
    s.wire = [] → s.phase ≠ .idle → s.q = .xfer rs v :: ops → s.nextOutcome = .ok →
    let hi : Pulse := ⟨rs, v.extractLsb' 4 4⟩
    let lo : Pulse := ⟨rs, v.extractLsb' 0 4⟩
    ∃ b0 b1 b2 b3, frame rs v s.readBl = [b0, b1, b2, b3] ∧
      [b0, b1, b2, b3].map lineE = [true, false, true, false] ∧ [b0, b1, b2, b3].map lineRs = [rs, rs, rs, rs] ∧
      (∃ t, runs 2 s = .next t ∧ t.mem.read s.addr.toNat = some b0 ∧ t.pulses = s.pulses) ∧
      (∃ t, runs 3 s = .next t ∧ t.mem.read s.addr.toNat = some b1 ∧ t.pulses = s.pulses ++ [hi]) ∧
      (∃ t, runs 4 s = .next t ∧ t.mem.read s.addr.toNat = some b2 ∧ t.pulses = s.pulses ++ [hi]) ∧
      (∃ t, runs 5 s = .next t ∧ t.mem.read s.addr.toNat = some b3 ∧ t.pulses = s.pulses ++ [hi, lo])

/-! ### The framer -/

/-- Spec R61: the frame, byte by byte, for the mask in `BL`; it is sent as one transaction; and the simplification that its data
column rests on. The spec marks that last sentence as derived. -/
def Obligations.FrameBytesAreTheTable : Prop :=
  (∀ (s : State) (v : Byte), frame false v s.readBl =
    [nibbleHi v ||| s.readBl ||| 0x04#8, nibbleHi v ||| s.readBl, nibbleLo v ||| s.readBl ||| 0x04#8,
      nibbleLo v ||| s.readBl]) ∧
  (∀ (s : State) (v : Byte), frame true v s.readBl =
    [nibbleHi v ||| s.readBl ||| 0x05#8, nibbleHi v ||| s.readBl ||| 0x01#8, nibbleLo v ||| s.readBl ||| 0x05#8,
      nibbleLo v ||| s.readBl ||| 0x01#8]) ∧
  (∀ (s : State) (rs : Bool) (v : Byte), ∃ events,
    (s.runMicro (.xfer rs v)).trace = s.trace ++ .x s.addr (frame rs v s.readBl) s.nextOutcome :: events ∧
      ∀ a bytes o, .x a bytes o ∉ events) ∧
  (∀ x : Byte, x.getLsbD 2 = false → (x ||| 0x05#8) &&& 0xFB#8 = x ||| 0x01#8) ∧
  (∀ (s : State) (v : Byte),
    (nibbleHi v ||| s.readBl).getLsbD 2 = false ∧ (nibbleLo v ||| s.readBl).getLsbD 2 = false)

/-- Spec R62: the four kinds of byte, where they stand in a frame, what two bytes of a frame share, and the trace decoder.
The spec marks the relations between the bytes as derived. -/
def Obligations.FrameBytesAreOfTheFourKinds : Prop :=
  ∀ (s : State) (rs : Bool) (v : Byte), ∃ b0 b1 b2 b3, frame rs v s.readBl = [b0, b1, b2, b3] ∧
    (∀ b ∈ [b0, b1, b2, b3], lineRw b = false) ∧
    b0.extractLsb' 0 3 = (if rs then 0b101#3 else 0b100#3) ∧ b2.extractLsb' 0 3 = b0.extractLsb' 0 3 ∧
    b1.extractLsb' 0 3 = (if rs then 0b001#3 else 0b000#3) ∧ b3.extractLsb' 0 3 = b1.extractLsb' 0 3 ∧
    b0.extractLsb' 0 4 = b2.extractLsb' 0 4 ∧ b1.extractLsb' 0 4 = b3.extractLsb' 0 4 ∧
    b1 = b0 &&& 0xFB#8 ∧ b3 = b2 &&& 0xFB#8 ∧
    b0.extractLsb' 4 4 = b1.extractLsb' 4 4 ∧ b2.extractLsb' 4 4 = b3.extractLsb' 4 4 ∧
    decodeFrame [b0, b1, b2, b3] = some (rs, v, s.readBl)

/-- Every byte of a frame decodes to the expander byte of its place: enable high, enable low, enable high, enable low. -/
def Obligations.FrameIsAnEnablePulsePerNibble : Prop :=
  ∀ (s : State) (v : Byte),
    (frame false v s.readBl).map decodeByte =
      [.ok (.cmdEh (v.extractLsb' 4 4) (lineBlk s.bl)), .ok (.cmdEl (v.extractLsb' 4 4) (lineBlk s.bl)),
       .ok (.cmdEh (v.extractLsb' 0 4) (lineBlk s.bl)), .ok (.cmdEl (v.extractLsb' 0 4) (lineBlk s.bl))] ∧
    (frame true v s.readBl).map decodeByte =
      [.ok (.datEh (v.extractLsb' 4 4) (lineBlk s.bl)), .ok (.datEl (v.extractLsb' 4 4) (lineBlk s.bl)),
       .ok (.datEh (v.extractLsb' 0 4) (lineBlk s.bl)), .ok (.datEl (v.extractLsb' 0 4) (lineBlk s.bl))]

/-- Spec R66: the DDRAM address command, both forms of the formula, the source's example, and the corner cases. The spec
marks the modulo and the corner cases as derived. -/
def Obligations.CursorCommandIsTheFormulaModulo256 : Prop :=
  (∀ line pos : Byte,
    ((ddCommand line pos).toNat : Int) = (0x80 + 0x40 * ((line.toNat : Int) - 1) + (pos.toNat : Int)) % 256 ∧
    (ddCommand line pos).toNat = (0x40 + 0x40 * line.toNat + pos.toNat) % 256 ∧
    ddCommand 0 pos = 0x40#8 + pos ∧ ddCommand (line + 4) pos = ddCommand line pos) ∧
  ddCommand 2 3 = 0xC3#8 ∧ ddCommand 3 0 = 0x00#8 ∧
  (∀ (line pos : Byte) (s : State), ∃ t, exec (.cursor line pos) s = .next t ∧
    t.q = [.xfer false (ddCommand line pos), .wait 2000])

/-- Spec R67: the CGRAM address command of each slot, in bits; a location outside 0..7 is refused before the formula is
used. The spec marks the bit fields as derived. -/
def Obligations.GlyphCommandIsTheSlotAddress : Prop :=
  (∀ loc : Byte, loc.toNat ≤ 7 →
    (cgCommand loc).toNat = 0x40 + 8 * loc.toNat ∧ (cgCommand loc).extractLsb' 6 2 = 0b01#2 ∧
    (cgCommand loc).extractLsb' 3 3 = loc.extractLsb' 0 3 ∧ (cgCommand loc).extractLsb' 0 3 = 0b000#3) ∧
  [0, 1, 2, 3, 4, 5, 6, 7].map cgCommand = [0x40#8, 0x48#8, 0x50#8, 0x58#8, 0x60#8, 0x68#8, 0x70#8, 0x78#8] ∧
  (∀ (loc : Byte) (rows : List Byte) (s : State), rows.length = 8 → 7 < loc.toNat →
    exec (.cgram loc rows) s = .next { s with trace := s.trace ++ [.r (.eRange loc)] })

/-- Spec R200: the response word. Which index in 0x03..0xFF a further kind has, and the info 0 where a response has none, is
log 5. -/
def Obligations.ResponseWordHasItsLayout : Prop :=
  (∀ r : Response, (responseWord r).extractLsb' 0 8 = responseCode r ∧
    (responseWord r).extractLsb' 8 8 = responseInfo r ∧ (responseWord r).extractLsb' 16 16 = 0) ∧
  responseWord .ok = 0x00000000#32 ∧ responseWord .eIllegal = 0x00000003#32 ∧
  (∀ loc : Byte, responseCode (.eRange loc) = 0x01#8 ∧ responseInfo (.eRange loc) = loc) ∧
  (∀ k : BusErrorKind, responseCode (.eBus k) = 0x02#8 ∧ responseInfo (.eBus k) = kindIndex k) ∧
  kindIndex .nack = 0x00#8 ∧ kindIndex .arbLost = 0x01#8 ∧ kindIndex .timeout = 0x02#8 ∧
  (∀ n : Nat, 0x03 ≤ (kindIndex (.other n)).toNat ∧ (n < 253 → (kindIndex (.other n)).toNat = 3 + n))

/-! ### What each request does when it is taken -/

/-- Spec R105, R106: `cmd` and `char`, taken by an idle block, are accepted, whatever else the state is, and nothing but the
sequencer changes. That `exec`, which is the acceptance, does not look at the phase is log 17. -/
def Obligations.PrimitiveRequestsAreAccepted : Prop :=
  ∀ (v : Byte) (s : State),
    exec (.cmd v) s = .next { s with q := [.xfer false v, .wait 2000], cur := some (.cmd v), phase := .busy } ∧
    exec (.char v) s = .next { s with q := [.xfer true v, .wait 2000], cur := some (.char v), phase := .busy }

/-- Spec R120, R203: `init` with a width in 1..255 is accepted: it writes `ADDR`, `WIDTH` and `BL` and queues the fixed
initialisation. With the width 0 it is answered `E_ILLEGAL` and writes nothing. `P_INIT_BL` is the parameter's mask for each
flag, and by default the flag's own mask (D9). That the meaning and not the decoder checks the width is log 3, that the
meaning of a request is its acceptance is log 17. -/
def Obligations.InitIsAcceptedUnlessTheWidthIsZero : Prop :=
  ∀ (a : Addr) (f : Bool) (w : Byte) (s : State),
    (w ≠ 0 → exec (.init a f w) s = .next { s with
      addr := a, width := w, bl := pInitBl s.cfg f, cur := some (.init a f w), phase := .busy,
      q := [.xfer false 0x33#8, .wait 2000, .xfer false 0x32#8, .wait 2000, .xfer false 0x28#8, .wait 2000,
            .xfer false 0x0C#8, .wait 2000, .xfer false 0x06#8, .wait 2000, .xfer false 0x01#8, .wait 2000,
            .setbl (if f then 0x08#8 else 0x00#8), .xfer false 0x00#8, .wait 2000, .wait 50000] }) ∧
    exec (.init a f 0) s = .next { s with trace := s.trace ++ [.r .eIllegal] } ∧
    (∀ c : Config, pInitBl c true = (if c.initBlOn then 0x08#8 else 0x00#8) ∧
      pInitBl c false = (if c.initBlOff then 0x08#8 else 0x00#8)) ∧
    pInitBl {} f = (if f then 0x08#8 else 0x00#8)

/-- Spec R122 to R125: `cursor`, `write`, `clear` and `backlight`, taken by an idle block, are accepted, whatever else the
state is. That `exec`, which is the acceptance, does not look at the phase is log 17. -/
def Obligations.DisplayRequestsAreAccepted : Prop :=
  ∀ (text : List Byte) (line pos : Byte) (on : Bool) (s : State),
    exec (.cursor line pos) s = .next { s with
      q := [.xfer false (ddCommand line pos), .wait 2000], cur := some (.cursor line pos), phase := .busy } ∧
    exec (.write text line pos) s = .next { s with
      q := [.xfer false (ddCommand line pos), .wait 2000] ++ text.flatMap fun v => [.xfer true v, .wait 2000],
      cur := some (.write text line pos), phase := .busy } ∧
    exec .clear s = .next { s with
      q := [.xfer false 0x01#8, .wait 2000, .wait 2000], cur := some .clear, phase := .busy } ∧
    exec (.backlight on) s = .next { s with
      q := [.setbl (if on then 0x08#8 else 0x00#8), .xfer false 0x00#8, .wait 2000],
      cur := some (.backlight on), phase := .busy }

/-- Spec R140 to R143: the scrolls, taken by an idle block, are accepted, whatever else the state is: the queue is, `REPEAT`
times, the pass that the width then in `WIDTH` gives. That `exec`, which is the acceptance, does not look at the phase is
log 17. -/
def Obligations.ScrollRequestsAreAccepted : Prop :=
  ∀ (text : List Byte) (line : Byte) (delay reps : Word) (s : State),
    exec (.scrollL text line delay reps) s = .next { s with
      q := (List.replicate reps.toNat
        (windowPass (leftWindows s.cfg s.width.toNat text) line delay.toNat)).flatten,
      cur := some (.scrollL text line delay reps), phase := .busy } ∧
    exec (.scrollR text line delay reps) s = .next { s with
      q := (List.replicate reps.toNat
        (windowPass (rightWindows s.cfg s.width.toNat text) line delay.toNat)).flatten,
      cur := some (.scrollR text line delay reps), phase := .busy } ∧
    exec (.scrollV text delay reps) s = .next { s with
      q := (List.replicate reps.toNat (pairPass (verticalLines s.cfg s.width.toNat text) delay.toNat)).flatten,
      cur := some (.scrollV text delay reps), phase := .busy }

/-- Spec R160, R208: `cgram` is accepted with eight rows and a slot in 0..7, refused `E_RANGE` with eight rows and another
location, refused `E_ILLEGAL` with another number of rows, whatever the location. That the meaning and not the decoder
counts the rows is log 3, that `exec` does not look at the phase is log 17. -/
def Obligations.GlyphRequestIsAcceptedOrRefused : Prop :=
  ∀ (loc : Byte) (rows : List Byte) (s : State),
    (rows.length = 8 → loc.toNat ≤ 7 → exec (.cgram loc rows) s = .next { s with
      q := [.xfer false (BitVec.ofNat 8 (0x40 + 8 * loc.toNat)), .wait 2000]
        ++ (rows.flatMap fun v => [.xfer true v, .wait 2000]) ++ [.xfer false 0x80#8, .wait 2000],
      cur := some (.cgram loc rows), phase := .busy }) ∧
    (rows.length = 8 → 7 < loc.toNat →
      exec (.cgram loc rows) s = .next { s with trace := s.trace ++ [.r (.eRange loc)] }) ∧
    (rows.length ≠ 8 → exec (.cgram loc rows) s = .next { s with trace := s.trace ++ [.r .eIllegal] })

/-- The four expander bytes, as instructions of the expander (log 22), run in every state. An enable-high byte is written
and hands nothing over; an enable-low byte is written and, when the enable line was high, hands over the nibble and the
register-select that it holds itself, also where it changes them as it lowers the line, which no frame does (log 9). What a
latch held that the model does not know is a free value (log 8). Every other latch, and everything else in the state, is as
before. -/
def Obligations.ExpanderBytesDriveTheLines : Prop :=
  ∀ (d : BitVec 4) (blk : Bool) (s : State),
    (∃ t, exec (.cmdEh d blk) s = .next t ∧ t = { s with mem := t.mem } ∧
      t.mem.read s.addr.toNat = some (d ++ (BitVec.ofBool blk ++ 0b100#3)) ∧
      ∀ a, a ≠ s.addr.toNat → t.mem.read a = s.mem.read a) ∧
    (∃ t, exec (.datEh d blk) s = .next t ∧ t = { s with mem := t.mem } ∧
      t.mem.read s.addr.toNat = some (d ++ (BitVec.ofBool blk ++ 0b101#3)) ∧
      ∀ a, a ≠ s.addr.toNat → t.mem.read a = s.mem.read a) ∧
    (∃ t, exec (.cmdEl d blk) s = .next t ∧ t = { s with mem := t.mem, pulses := t.pulses } ∧
      t.pulses = (if lineE s.outLatch then s.pulses ++ [⟨false, d⟩] else s.pulses) ∧
      t.mem.read s.addr.toNat = some (d ++ (BitVec.ofBool blk ++ 0b000#3)) ∧
      ∀ a, a ≠ s.addr.toNat → t.mem.read a = s.mem.read a) ∧
    (∃ t, exec (.datEl d blk) s = .next t ∧ t = { s with mem := t.mem, pulses := t.pulses } ∧
      t.pulses = (if lineE s.outLatch then s.pulses ++ [⟨true, d⟩] else s.pulses) ∧
      t.mem.read s.addr.toNat = some (d ++ (BitVec.ofBool blk ++ 0b001#3)) ∧
      ∀ a, a ≠ s.addr.toNat → t.mem.read a = s.mem.read a)

/-- The frame of a request's `exec`, which is its acceptance (log 17): it stores to no latch, hands nothing over, sends nothing and
takes no outcome; only `init` writes registers; the trace gains a response when it is refused and nothing otherwise. The time
of the step that takes the request passes before `exec` (`State.pass`; R255, log 14), and `exec` itself adds none. -/
def Obligations.RequestFrame : Prop :=
  ∀ (i : Instr) (s t : State), i.isRequest = true → exec i s = .next t →
    (∀ a, t.mem.read a = s.mem.read a) ∧ t.wire = s.wire ∧ t.lineHeld = s.lineHeld ∧ t.pulses = s.pulses ∧
    t.now = s.now ∧ t.offers = s.offers ∧ t.busIn = s.busIn ∧ t.cfg = s.cfg ∧ t.draws = s.draws ∧ t.steps = s.steps ∧
    ((∀ a f w, i ≠ .init a f w) → s.sameRegisters t) ∧
    ((t.phase = .busy ∧ t.cur = some i ∧ t.trace = s.trace) ∨
      (t.phase = s.phase ∧ t.cur = s.cur ∧ t.q = s.q ∧ s.sameRegisters t ∧
        ∃ resp, resp ≠ .ok ∧ t.trace = s.trace ++ [.r resp]))

/-- Spec R77: the composite requests are sequences of `cmd`, `char` and waits, `backlight` with `BL` written first; a scroll is
some such sequence too. -/
def Obligations.CompositeRequestsAreSequencesOfPrimitives : Prop :=
  ∀ (s : State) (text rows : List Byte) (line pos loc : Byte) (on : Bool) (delay reps : Word),
    rows.length = 8 → loc.toNat ≤ 7 →
    ∃ cmd char : Byte → List MicroOp,
      (∀ v, ∃ t, exec (.cmd v) s = .next t ∧ t.q = cmd v) ∧
      (∀ v, ∃ t, exec (.char v) s = .next t ∧ t.q = char v) ∧
      (∃ t, exec (.cursor line pos) s = .next t ∧ t.q = cmd (ddCommand line pos)) ∧
      (∃ t, exec (.write text line pos) s = .next t ∧ t.q = cmd (ddCommand line pos) ++ text.flatMap char) ∧
      (∃ t, exec .clear s = .next t ∧ t.q = cmd 0x01#8 ++ [.wait tClearExtraUs]) ∧
      (∃ t, exec (.backlight on) s = .next t ∧
        t.q = [.setbl (if on then 0x08#8 else 0x00#8)] ++ cmd 0x00#8) ∧
      (∃ t, exec (.cgram loc rows) s = .next t ∧
        t.q = cmd (cgCommand loc) ++ rows.flatMap char ++ cmd 0x80#8) ∧
      (∀ i ∈ [Instr.scrollL text line delay reps, .scrollR text line delay reps, .scrollV text delay reps],
        ∃ t pieces, exec i s = .next t ∧ t.q = List.flatten pieces ∧
          ∀ p ∈ pieces, (∃ v, p = cmd v) ∨ (∃ v, p = char v) ∨ ∃ d, p = [.wait d])

/-! ### Encodings -/

/-- A few words written out from spec R68 to R72 and R60 decode to what they stand for (95_test_vectors.md V4, V5, V9). -/
def Obligations.SampleWordsDecode : Prop :=
  decode (.request { w0 := 0x01100027#32 }) = .ok (.init 0x27#7 true 16#8) ∧
  decode (.request { w0 := 0x10000001#32 }) = .ok (.cmd 0x01#8) ∧
  decode (.request { w0 := 0x40000203#32, payload := [0x48#8, 0x49#8] }) = .ok (.write [0x48#8, 0x49#8] 2#8 3#8) ∧
  decode (.request { w0 := 0x70000100#32, w1 := 0#32, w2 := 1#32, payload := [0x48#8, 0x49#8] }) =
    .ok (.scrollL [0x48#8, 0x49#8] 1#8 0#32 1#32) ∧
  decode (.byte 0x3C#8) = .ok (.cmdEh 0x3#4 true) ∧
  decode (.request { w0 := 0xB0000000#32 }) = .error .reservedOpcode

/-- Decode and encode agree: every instruction, with every operand, is read back from its encoding. For an `init` with the width 0
and a `cgram` whose rows are not eight, which R73 refuses, that they decode to their rows, and that their meanings answer
`E_ILLEGAL`, is the model's choice (log 3); for every other instruction it is R60, R62 and R68 to R72. -/
def Obligations.DecodeOfEncodeIsTheInstruction : Prop :=
  ∀ i : Instr, decode (encode i) = .ok i

/-- The other direction: whatever decodes was the encoding of what it decodes to, but for the two words that only the scrolls
have (spec R74). That a request carries two words that only the scrolls read is log 2. -/
def Obligations.EncodeOfDecodeIsTheEncoding : Prop :=
  (∀ (b : Byte) (i : Instr), decodeByte b = .ok i → encode i = .byte b) ∧
  (∀ (r : Request) (i : Instr), decodeRequest r = .ok i →
    ∃ w1 w2, encode i = .request { r with w1 := w1, w2 := w2 } ∧
      (7 ≤ r.op.toNat → r.op.toNat ≤ 9 → w1 = r.w1 ∧ w2 = r.w2))

/-- Spec R73: an idle block answers `E_ILLEGAL` to exactly the requests that the opcode table's masks, the payload rule and the
limits of `init` rule out, with no other effect; every other request decodes to a well-formed instruction, and is accepted or
refused `E_RANGE`. -/
def Obligations.IllegalRequestsAreExactlyTheRefusedOnes : Prop :=
  ∀ (s : State) (r : Request) (rest : List Request), s.wire = [] → s.phase = .idle → s.offers = r :: rest →
    (illegalRequest r = true →
      step s = .next { s.pass with offers := rest, trace := s.trace ++ [.r .eIllegal] }) ∧
    (illegalRequest r = false → ∃ i t, decodeRequest r = .ok i ∧ i.wf ∧ step s = .next t ∧
      ((t.phase = .busy ∧ t.cur = some i ∧ t.trace = s.trace) ∨
        ∃ loc rows, i = .cgram loc rows ∧ 7 < loc.toNat ∧
          t = { s.pass with offers := rest, trace := s.trace ++ [.r (.eRange loc)] }))

/-- Spec R74: only opcodes 0x7, 0x8 and 0x9 have extension words. -/
def Obligations.OnlyScrollsReadExtensionWords : Prop :=
  ∀ (r : Request) (w1 w2 : Word), ¬(7 ≤ r.op.toNat ∧ r.op.toNat ≤ 9) →
    decodeRequest { r with w1 := w1, w2 := w2 } = decodeRequest r

/-! ### Whole runs -/

/-- A queue whose transactions all succeed runs to its response: every micro-operation in order, nothing else, each
controller byte handed over once, the waits waited. The number of steps is the model's choice (log 6). -/
def Obligations.SuccessfulQueueRunsToItsResponse : Prop :=
  ∀ (s : State) (more : List BusOutcome), s.wire = [] → s.phase ≠ .idle →
    s.busIn = List.replicate (xferCount s.q) .ok ++ more →
    ∃ t, runs (stepCount s.q + 1) s = .next t ∧
      t.trace = s.trace ++ successEvents s.addr s.readBl s.q ++ [.r .ok] ∧
      controllerBytes (t.pulses.drop s.pulses.length) = sentBytes s.q ∧ t.pulses.take s.pulses.length = s.pulses ∧
      s.now + waitTotal s.q ≤ t.now ∧
      t.phase = .idle ∧ t.q = [] ∧ t.wire = [] ∧ t.cur = none ∧
      t.addr = s.addr ∧ t.width = s.width ∧ t.bl = finalBl s.bl s.q ∧
      t.busIn = more ∧ t.offers = s.offers ∧ t.cfg = s.cfg ∧
      (∀ a, a ≠ s.addr.toNat → t.mem.read a = s.mem.read a) ∧
      (0 < xferCount s.q → ∃ b, t.mem.read s.addr.toNat = some b ∧ lineE b = false ∧ lineRw b = false)

/-- A queue whose next transactions succeed until one fails: what comes before the failing transaction has happened, nothing
after it does, its own wait included, and the response carries the kind of the failure. The registers keep what was written.
The spec marks R207, which this states, as derived. The number of steps is the model's choice (log 6); how the latch becomes
unknown is log 7. -/
def Obligations.FirstFailureEndsTheRequest : Prop :=
  ∀ (s : State) (before after : List MicroOp) (rs : Bool) (v : Byte) (k : BusErrorKind) (more : List BusOutcome),
    s.wire = [] → s.phase ≠ .idle → s.q = before ++ .xfer rs v :: after → admits s.cfg (.err k) = true →
    s.busIn = List.replicate (xferCount before) .ok ++ .err k :: more →
    ∃ t, runs (stepCount before + 1) s = .next t ∧
      t.trace = s.trace ++ successEvents s.addr s.readBl before ++
        [.x s.addr (frame rs v (finalBl s.readBl before)) (.err k), .r (.eBus k)] ∧
      t.phase = .idle ∧ t.q = [] ∧ t.wire = [] ∧ t.cur = none ∧
      t.addr = s.addr ∧ t.width = s.width ∧ t.bl = finalBl s.bl before ∧
      t.busIn = more ∧ t.offers = s.offers ∧ t.cfg = s.cfg ∧ s.now + waitTotal before ≤ t.now ∧
      t.mem.read s.addr.toNat = none ∧ (∀ a, a ≠ s.addr.toNat → t.mem.read a = s.mem.read a)

/-- Whatever the bus does, every accepted request ends, with exactly one response, `OK` or a bus error, and the block is
then `IDLE` with nothing left to do. The bound on the steps rests on the model's choice of log 6. -/
def Obligations.EveryRequestEndsWithOneResponse : Prop :=
  ∀ s : State, s.wire = [] → s.phase ≠ .idle →
    ∃ n t, n ≤ stepCount s.q + 1 ∧ runs n s = .next t ∧
      t.phase = .idle ∧ t.q = [] ∧ t.wire = [] ∧ t.cur = none ∧ t.offers = s.offers ∧
      ∃ events resp, t.trace = s.trace ++ events ++ [.r resp] ∧ (∀ e ∈ events, e.isResponse = false) ∧
        (resp = .ok ∨ ∃ k, resp = .eBus k)

/-- Spec R105, R106, R109: `cmd` and `char` send one frame, wait 2 ms and respond `OK`. -/
def Obligations.PrimitiveRequestsSendOneFrame : Prop :=
  ∀ (s : State) (v : Byte),
    (s.offered (.cmd v) 1 → ∃ t, s.answered t [.x s.addr (frame false v s.readBl) .ok, .w 2000] .ok 2000 ∧
      s.sameRegisters t) ∧
    (s.offered (.char v) 1 → ∃ t, s.answered t [.x s.addr (frame true v s.readBl) .ok, .w 2000] .ok 2000 ∧
      s.sameRegisters t)

/-- Spec R120, R121, R248: `init` sends the six commands in the fixed order and the backlight placeholder, each followed by
2 ms, then waits 50 ms; it leaves its own operands in the registers. -/
def Obligations.InitRunsTheFixedSequence : Prop :=
  ∀ (s : State) (a : Addr) (f : Bool) (w : Byte), w ≠ 0 → s.offered (.init a f w) 7 →
    ∃ t, s.answered t (initEvents a (pInitBl s.cfg f) (if f then 0x08#8 else 0x00#8)) .ok 64000 ∧
      t.addr = a ∧ t.width = w ∧ t.bl = (if f then 0x08#8 else 0x00#8)

/-- Spec R122, R123: `cursor` sends one command; `write` sends it and then every byte of the text, whatever the width, and the
controller is handed exactly those bytes in order. -/
def Obligations.CursorAndWriteSendTheirBytesInOrder : Prop :=
  ∀ (s : State) (text : List Byte) (line pos : Byte),
    (s.offered (.cursor line pos) 1 →
      ∃ t, s.answered t (sendEvents s.addr s.readBl false (ddCommand line pos)) .ok 2000 ∧ s.sameRegisters t) ∧
    (s.offered (.write text line pos) (text.length + 1) →
      ∃ t, s.answered t (writeEvents s.addr s.readBl text line pos) .ok ((text.length + 1) * 2000) ∧ s.sameRegisters t ∧
        controllerBytes (t.pulses.drop s.pulses.length) =
          (false, ddCommand line pos) :: text.map fun v => (true, v))

/-- Spec R124, R247: `clear` sends command 0x01 once and waits 2 ms twice. -/
def Obligations.ClearSendsOneCommandAndWaitsTwice : Prop :=
  ∀ s : State, s.offered .clear 1 →
    ∃ t, s.answered t [.x s.addr (frame false 0x01#8 s.readBl) .ok, .w 2000, .w 2000] .ok 4000 ∧ s.sameRegisters t

/-- Spec R126, R125: `backlight` sets the mask and sends command 0x00 with it; the backlight line of every byte of its
frame, and then of the expander, equals the new `BL`; whether the visible backlight does, is the platform parameter's (log
24). When its transaction fails, `BL` keeps the new value all the same. The spec marks R126's first sentence as derived. -/
def Obligations.BacklightReachesTheExpander : Prop :=
  ∀ (s : State) (on : Bool),
    (s.offered (.backlight on) 1 →
      ∃ t b, s.answered t (sendEvents s.addr (if on then 0x08#8 else 0x00#8) false 0x00#8) .ok 2000 ∧
        t.addr = s.addr ∧ t.width = s.width ∧ t.bl = (if on then 0x08#8 else 0x00#8) ∧
        (∀ x ∈ frame false 0x00#8 (if on then 0x08#8 else 0x00#8), lineBlk x = on) ∧
        t.mem.read s.addr.toNat = some b ∧ lineBlk b = on ∧
        t.backlightLit = (match s.cfg.wiring with | .line => on | .fixed lit => lit)) ∧
    (∀ k more, s.offered (.backlight on) 0 → admits s.cfg (.err k) = true → s.busIn = .err k :: more →
      ∃ t, s.answered t [.x s.addr (frame false 0x00#8 (if on then 0x08#8 else 0x00#8)) (.err k)] (.eBus k) 0 ∧
        t.addr = s.addr ∧ t.width = s.width ∧ t.bl = (if on then 0x08#8 else 0x00#8))

/-- Spec R252: a change of `BL` reaches the expander only with the next frame. From the `SETBL` until the transaction is issued no
latch changes, and until its last byte has been taken the backlight line shows the old value; then it shows the new one. The
latch meanwhile steps through the bytes, whose backlight bit is new from the first on (R41, R49). That the latch and what the
line shows are told apart is log 25, one step for each byte is log 6. The spec marks R252 as derived. -/
def Obligations.BacklightLineChangesWithTheNextFrame : Prop :=
  ∀ (s : State) (m : Byte) (rs : Bool) (v : Byte) (ops : List MicroOp),
    s.wire = [] → s.phase ≠ .idle → s.q = .setbl m :: .xfer rs v :: ops → s.nextOutcome = .ok →
    (∃ t, runs 1 s = .next t ∧ t.bl = m &&& 0x08#8 ∧ t.mem = s.mem) ∧
    (∃ t, runs 2 s = .next t ∧ t.mem = s.mem) ∧
    (∀ n, n ≤ 5 → ∃ t, runs n s = .next t ∧ t.backlightLine = s.backlightLine) ∧
    (∃ t, runs 6 s = .next t ∧ t.wire = [] ∧ t.backlightLine = lineBlk m) ∧
    (∀ n, 3 ≤ n → n ≤ 6 → ∃ t b, runs n s = .next t ∧ t.mem.read s.addr.toNat = some b ∧ lineBlk b = lineBlk m)

/-- Spec R141, R142: the horizontal scrolls write their windows at position 0 of the line, with the delay after each. -/
def Obligations.HorizontalScrollsWriteTheirWindows : Prop :=
  ∀ (s : State) (text : List Byte) (line : Byte) (delay reps : Word),
    let n := reps.toNat * (text.length + 1) * (s.width.toNat + 1)
    let wait := n * 2000 + reps.toNat * (text.length + 1) * delay.toNat
    let pass := fun (windows : List (List Byte)) =>
      windows.flatMap fun win => writeEvents s.addr s.readBl win line 0 ++ [.w delay.toNat]
    (s.offered (.scrollL text line delay reps) n → ∃ t,
      s.answered t (List.replicate reps.toNat (pass (leftWindows s.cfg s.width.toNat text))).flatten .ok wait ∧
      s.sameRegisters t) ∧
    (s.offered (.scrollR text line delay reps) n → ∃ t,
      s.answered t (List.replicate reps.toNat (pass (rightWindows s.cfg s.width.toNat text))).flatten .ok wait ∧
      s.sameRegisters t)

/-- Spec R143: the vertical scroll writes each adjacent pair of lines, the first on display line 1 and the second on line 2,
and waits the delay after each pair. What the lines hold is stated in VerticalChunksPartitionTheText. -/
def Obligations.VerticalScrollWritesAdjacentPairs : Prop :=
  ∀ (s : State) (text : List Byte) (delay reps : Word) (oks : Nat),
    oks = xferCount (scrollVOps s.cfg s.width text delay reps) → s.offered (.scrollV text delay reps) oks →
    let lines := verticalLines s.cfg s.width.toNat text
    ∃ t, s.answered t (List.replicate reps.toNat ((lines.zip lines.tail).flatMap fun p =>
        writeEvents s.addr s.readBl p.1 1 0 ++ writeEvents s.addr s.readBl p.2 2 0 ++ [.w delay.toNat])).flatten
      .ok (waitTotal (scrollVOps s.cfg s.width text delay reps)) ∧ s.sameRegisters t

/-- Spec R160: `cgram` sends the slot's address command, the eight rows, and command 0x80: ten transactions. -/
def Obligations.GlyphIsProgrammedInTenTransactions : Prop :=
  ∀ (s : State) (loc : Byte) (rows : List Byte), rows.length = 8 → loc.toNat ≤ 7 → s.offered (.cgram loc rows) 10 →
    ∃ t, s.answered t (sendEvents s.addr s.readBl false (cgCommand loc) ++
        rows.flatMap (sendEvents s.addr s.readBl true) ++ sendEvents s.addr s.readBl false 0x80#8) .ok 20000 ∧
      s.sameRegisters t ∧
      controllerBytes (t.pulses.drop s.pulses.length) =
        (false, cgCommand loc) :: (rows.map fun v => (true, v)) ++ [(false, 0x80#8)]

/-! ### Scroll windows -/

/-- Spec R141: every window has the width's bytes, there are n + 1 of them, the first begins with the text, and the last is all
spaces. The spec marks the window length as derived. -/
def Obligations.LeftScrollWindowsSlideOffTheLeft : Prop :=
  ∀ (c : Config) (w : Nat) (text : List Byte),
    (leftWindows c w text).length = text.length + 1 ∧
    (∀ win ∈ leftWindows c w text, win.length = w) ∧
    (leftWindows c w text).getLast? = some (List.replicate w c.space) ∧
    (∀ i, i ≤ text.length → ∃ win, (leftWindows c w text)[i]? = some win ∧
      ∀ j, j < w → win[j]? = some ((text[i + j]?).getD c.space))

/-- Spec R142: the right scroll is the mirror image of the left scroll: the windows of the reversed text, each reversed.
The spec marks the mirror image as derived. -/
def Obligations.RightScrollMirrorsLeftScroll : Prop :=
  ∀ (c : Config) (w : Nat) (text : List Byte),
    rightWindows c w text = (leftWindows c w text.reverse).map List.reverse ∧
    (∀ win ∈ rightWindows c w text, win.length = w)

/-- Spec R143: the chunks are the text cut into pieces of the width: joined they are the text, there are ceil(n / W) of
them, all but the last are full and none is empty or longer; with the blank lines there are k + 1 adjacent pairs. The
bracketed list, for each `P_VBLANK` and `P_VPAD`: its first and last line are W spaces or empty, the lines between are the
chunks, and only the last of them is padded, to W, when `P_VPAD` says so. -/
def Obligations.VerticalChunksPartitionTheText : Prop :=
  ∀ (c : Config) (w : Nat) (text : List Byte), 0 < w →
    (chunks w text).flatten = text ∧
    (chunks w text).length = (text.length + w - 1) / w ∧
    (∀ ch ∈ chunks w text, 0 < ch.length ∧ ch.length ≤ w) ∧
    (∀ ch ∈ (chunks w text).dropLast, ch.length = w) ∧
    ((verticalLines c w text).zip (verticalLines c w text).tail).length = (text.length + w - 1) / w + 1 ∧
    let k := (text.length + w - 1) / w
    let blank := match c.vblank with | .spaces => List.replicate w c.space | .empty => []
    ∃ middle, verticalLines c w text = [blank] ++ middle ++ [blank] ∧ middle.length = k ∧
      ∀ j, j < k → ∃ ch, (chunks w text)[j]? = some ch ∧ ch = (text.drop (j * w)).take w ∧
        middle[j]? = some (match c.vpad with
          | .none => ch
          | .spaces => if j + 1 = k then ch ++ List.replicate (w - ch.length) c.space else ch)

/-- Spec R144, R254: how many transactions the scrolls make, and how long they wait at least. The spec marks R144's
minimum time and R254 as derived. -/
def Obligations.ScrollTransactionCounts : Prop :=
  ∀ (c : Config) (width : Byte) (text : List Byte) (line : Byte) (delay reps : Word),
    let w := width.toNat
    let n := text.length
    let r := reps.toNat
    let d := delay.toNat
    let pairs := (verticalLines c w text).zip (verticalLines c w text).tail
    xferCount (scrollLOps c width text line delay reps) = r * (n + 1) * (w + 1) ∧
    xferCount (scrollROps c width text line delay reps) = r * (n + 1) * (w + 1) ∧
    xferCount (scrollVOps c width text delay reps) =
      r * (pairs.map fun p => (1 + p.1.length) + (1 + p.2.length)).sum ∧
    waitTotal (scrollLOps c width text line delay reps) = r * (n + 1) * (w + 1) * 2000 + r * (n + 1) * d ∧
    waitTotal (scrollROps c width text line delay reps) = r * (n + 1) * (w + 1) * 2000 + r * (n + 1) * d ∧
    waitTotal (scrollVOps c width text delay reps) =
      xferCount (scrollVOps c width text delay reps) * 2000 + r * pairs.length * d

/-! ### Invariants and whole-machine rules -/

/-- Every step keeps the invariant. Its clause that the backlight line is held exactly while bytes are on the wire is the model's
form of R252, which the spec marks as derived: that the line is held in a field of its own is log 25 (DEDUCED), that bytes are on
the wire in steps of their own is log 6. That `BUSY` goes with a request in progress rests on log 13, the canonical form of the
latches is log 21. -/
def Obligations.StepKeepsTheInvariant : Prop :=
  ∀ s t : State, s.Inv → step s = .next t → t.Inv

/-- Every step keeps the trace settled: each successful transaction is followed at once by the 2 ms wait, each failed one by its
response. The spec marks R246 as derived. -/
def Obligations.StepKeepsTheTraceSettled : Prop :=
  ∀ s t : State, s.Inv → s.TraceInv → step s = .next t → t.TraceInv

/-- From a state that meets the invariant, a step always answers a next state: the machine neither faults nor refuses. -/
def Obligations.NothingStopsTheMachine : Prop :=
  ∀ s : State, s.Inv → ∃ t, step s = .next t

/-- The one fault is raised exactly by a byte on the wire with `RW` = 1, and no step refuses. That such a byte stops the
machine is the model's choice (log 10). -/
def Obligations.OnlyAReadByteFaults : Prop :=
  ∀ s : State, (∀ f, step s = .fault f ↔ f = .readWriteHigh ∧ ∃ b rest, s.wire = b :: rest ∧ lineRw b = true) ∧
    (∀ r, step s ≠ .refused r)

/-- Spec R204, R217, R202: the outcomes of transactions are those of the parameter `BusErrorKind`. An outcome of it that the bus
interface has named is the one that the next transaction gets, unchanged; no step reports an error of another kind; and the
parameter may be any choice of further kinds beside the three named ones (the form of that choice is log 5, the outcome where
the bus interface has named none is a free value, log 4). -/
def Obligations.OnlyKindsOfTheParameterAreReported : Prop :=
  (∀ (s : State) (o : BusOutcome) (more : List BusOutcome), s.busIn = o :: more → admits s.cfg o = true →
    s.nextOutcome = o) ∧
  (∀ s t : State, step s = .next t → ∃ events, t.trace = s.trace ++ events ∧ ∀ e ∈ events,
    (∀ a bytes o, e = .x a bytes o → admits s.cfg o = true) ∧
    (∀ k, e = .r (.eBus k) → admits s.cfg (.err k) = true)) ∧
  (∀ c : Config, [BusOutcome.ok, .err .nack, .err .arbLost, .err .timeout].all (admits c) = true) ∧
  (∀ (c : Config) (n : Nat), admits c (.err (.other n)) = true ↔
    c.kinds = .all ∨ ∃ ns, c.kinds = .listed ns ∧ n ∈ ns)

/-- Spec R23, R24, R26: only `init` changes `ADDR` or `WIDTH`, and only `init` and a `SETBL` change `BL`. -/
def Obligations.OnlyInitAndSetblWriteRegisters : Prop :=
  ∀ s t : State, step s = .next t →
    let initTaken := s.wire = [] ∧ s.phase = .idle ∧
      ∃ r rest a f w, s.offers = r :: rest ∧ decodeRequest r = .ok (.init a f w) ∧ w ≠ 0 ∧
        t.addr = a ∧ t.width = w ∧ t.bl = pInitBl s.cfg f
    (t.addr ≠ s.addr ∨ t.width ≠ s.width → initTaken) ∧
    (t.bl ≠ s.bl → initTaken ∨
      (s.wire = [] ∧ s.phase ≠ .idle ∧ ∃ m ops, s.q = .setbl m :: ops ∧ t.bl = m &&& 0x08#8))

/-- Spec R201: only `cgram` with a location outside 0..7 is answered `E_RANGE`, with that location, and then nothing else happens;
such a `cgram` always is; and no other operand of a well-formed request is range-checked. -/
def Obligations.OnlyGlyphLocationsAreRangeChecked : Prop :=
  (∀ (s t : State) (loc : Byte), step s = .next t → t.trace = s.trace ++ [.r (.eRange loc)] →
    s.wire = [] ∧ s.phase = .idle ∧ 7 < loc.toNat ∧
      ∃ r rest rows, s.offers = r :: rest ∧ decodeRequest r = .ok (.cgram loc rows) ∧ rows.length = 8 ∧
        t = { s.pass with offers := rest, trace := s.trace ++ [.r (.eRange loc)] }) ∧
  (∀ (s : State) (r : Request) (rest : List Request) (loc : Byte) (rows : List Byte), s.wire = [] → s.phase = .idle →
    s.offers = r :: rest → decodeRequest r = .ok (.cgram loc rows) → rows.length = 8 → 7 < loc.toNat →
    step s = .next { s.pass with offers := rest, trace := s.trace ++ [.r (.eRange loc)] }) ∧
  (∀ (i : Instr) (s : State), i.isRequest = true → i.wf → (∀ loc rows, i = .cgram loc rows → loc.toNat ≤ 7) →
    ∃ t, exec i s = .next t ∧ t.phase = .busy ∧ t.trace = s.trace)

/-- A step only adds to the trace and to what was handed over, never sets the clock back, and never changes a parameter. -/
def Obligations.HistoryOnlyGrows : Prop :=
  ∀ s t : State, step s = .next t →
    s.trace <+: t.trace ∧ s.pulses <+: t.pulses ∧ s.now ≤ t.now ∧ t.cfg = s.cfg

/-- Spec R213, R254, R255 (D30): time decides nothing. What a step does, its own time aside, does not depend on the clock, nor on
the model's counter of steps (log 14). -/
def Obligations.TimeDecidesNothing : Prop :=
  ∀ (s t : State) (time count : Nat), step s = .next t →
    ∃ t', step { s with now := time, steps := count } = .next t' ∧ t' = { t with now := t'.now, steps := t'.steps }

/-- Spec R40: a step changes no latch but the one at `ADDR`, and only by a byte taken from the wire or a failed transaction. -/
def Obligations.OnlyTheLatchAtAddrChanges : Prop :=
  ∀ (s t : State) (a : Nat), step s = .next t → t.mem.read a ≠ s.mem.read a →
    a = s.addr.toNat ∧
      ((∃ b rest, s.wire = b :: rest ∧ t.mem.read a = some b) ∨
        (s.wire = [] ∧ s.phase ≠ .idle ∧ t.mem.read a = none ∧ ∃ rs v ops k, s.q = .xfer rs v :: ops ∧ s.nextOutcome = .err k))

/-! ### The memory and the assembler -/

/-- Canonical latch memories are determined by their reads; so a write hides the one before it at its address, and writes at two
addresses commute. The list form of the memory is the model's own (log 21). -/
def Obligations.CanonicalMemoriesAreTheirReads : Prop :=
  (∀ m m' : Memory, m.wf → m'.wf → (∀ a, m.read a = m'.read a) → m = m') ∧
  (∀ (m : Memory) (a : Nat) (b b' : Byte), m.wf → a < 128 → (m.write a b').write a b = m.write a b) ∧
  (∀ (m : Memory) (a a' : Nat) (b b' : Byte), m.wf → a < 128 → a' < 128 → a ≠ a' →
    (m.write a b).write a' b' = (m.write a' b').write a b)

/-- Spec R76: an operand left off takes the source's default. -/
def Obligations.OmittedOperandsTakeTheDefaults : Prop :=
  ∀ (text : List Byte) (line : Byte) (d : Word),
    (Written.init none none none).toInstr = .init 0x27#7 true 16#8 ∧
    (Written.write text none none).toInstr = .write text 1#8 0#8 ∧
    (Written.write text (some line) none).toInstr = .write text line 0#8 ∧
    (Written.scrollL text line none none).toInstr = .scrollL text line 300000#32 1#32 ∧
    (Written.scrollR text line none none).toInstr = .scrollR text line 300000#32 1#32 ∧
    (Written.scrollV text none none).toInstr = .scrollV text 500000#32 1#32 ∧
    (Written.scrollL text line (some d) none).toInstr = .scrollL text line d 1#32 ∧
    (Written.scrollR text line (some d) none).toInstr = .scrollR text line d 1#32 ∧
    (Written.scrollV text (some d) none).toInstr = .scrollV text d 1#32
end

