-- ==== Sys2Proof/Laws/Decode.lean ====
section
/-! SUPPORT. What the header's encoder and the request checks do, said once. -/

namespace Sys2Proof

/-- The fields read from a header are the fields it was made of (spec R68). -/
theorem header_fields (op : BitVec 4) (s : Bool) (a b c : Byte) (w1 w2 : Word) (payload : List Byte) :
    let r : Request := { w0 := header op s a b c, w1 := w1, w2 := w2, payload := payload }
    r.op = op ∧ r.reserved = 0 ∧ r.s = s ∧ r.a = a ∧ r.b = b ∧ r.c = c := by
  refine ⟨?_, ?_, ?_, ?_, ?_, ?_⟩
  · ext i hi; simp [Request.op, header]; grind
  · ext i hi; simp [Request.reserved, header]; grind
  · cases s <;> simp only [Request.s, header, BitVec.getLsbD_append] <;> simp
  · ext i hi; simp [Request.a, header]; grind
  · ext i hi; simp [Request.b, header]; grind
  · ext i hi; simp [Request.c, header]; grind

/-- A request that passes a row's checks meets each of them, and decodes to the row's instruction (spec R73). -/
theorem checked_eq_ok {r : Request} {zero takesPayload : Bool} {i j : Instr}
    (h : r.checked zero takesPayload i = .ok j) :
    i = j ∧ r.reserved = 0 ∧ zero = true ∧ (takesPayload = false → r.payload = []) := by
  simp only [Request.checked] at h
  split at h
  · simp at h
  · next h1 =>
    split at h
    · simp at h
    · next h2 =>
      split at h
      · simp at h
      · next h3 => exact ⟨by simpa using h, by simpa using h1, by simpa using h2, fun hp => by simp [hp] at h3; exact h3⟩

end Sys2Proof
end

