-- ==== Sys2Proof/Laws/Memory.lean ====
section
/-! SUPPORT. The laws of the latch memory: reads after writes, and the canonical form. -/

namespace Sys2Proof.Machine.Memory

/-- A written latch reads as the byte written. -/
@[simp] theorem read_write_same (m : Memory) (a : Nat) (b : Byte) : (m.write a b).read a = some b := by
  induction m with
  | nil => simp [write, read]
  | cons c m ih =>
    obtain ⟨a', b'⟩ := c
    simp only [write]
    split
    · simp [read]
    · split
      · simp [read]
      · have h : a' ≠ a := by omega
        simpa [read, h] using ih

/-- A write leaves every other latch alone. -/
@[simp] theorem read_write_other (m : Memory) {a x : Nat} (b : Byte) (h : x ≠ a) :
    (m.write a b).read x = m.read x := by
  induction m with
  | nil => simp [write, read, h.symm]
  | cons c m ih =>
    obtain ⟨a', b'⟩ := c
    simp only [write]
    split
    · simp [read, h.symm]
    · split
      · next h1 => subst h1; simp [read, h.symm]
      · simp [read, ih]

/-- A forgotten latch is unknown. -/
@[simp] theorem read_forget_same (m : Memory) (a : Nat) : (m.forget a).read a = none := by
  induction m with
  | nil => rfl
  | cons c m ih =>
    obtain ⟨a', b'⟩ := c
    by_cases h : a' = a
    · simpa [forget, h] using ih
    · simpa [forget, read, h] using ih

/-- Forgetting one latch leaves every other alone. -/
@[simp] theorem read_forget_other (m : Memory) {a x : Nat} (h : x ≠ a) : (m.forget a).read x = m.read x := by
  induction m with
  | nil => rfl
  | cons c m ih =>
    obtain ⟨a', b'⟩ := c
    by_cases h' : a' = a
    · subst h'; simpa [forget, read, h.symm] using ih
    · simp [forget, read, h', ih]

/-- What is in memory after a write. -/
theorem mem_write {m : Memory} {a : Nat} {b : Byte} {c : Host.Cell} (h : c ∈ m.write a b) :
    c = (a, b) ∨ c ∈ m := by
  induction m with
  | nil => simpa [write] using h
  | cons d m ih =>
    obtain ⟨a', b'⟩ := d
    simp only [write] at h
    split at h
    · simpa using h
    · split at h
      · rcases List.mem_cons.1 h with h | h
        · exact .inl h
        · exact .inr (List.mem_cons_of_mem _ h)
      · rcases List.mem_cons.1 h with h | h
        · exact .inr (h ▸ List.mem_cons_self)
        · rcases ih h with h | h
          · exact .inl h
          · exact .inr (List.mem_cons_of_mem _ h)

/-- What is in memory after forgetting was there before, and is of another latch. -/
theorem mem_forget {m : Memory} {a : Nat} {c : Host.Cell} (h : c ∈ m.forget a) : c ∈ m ∧ c.1 ≠ a := by
  induction m with
  | nil => simp [forget] at h
  | cons d m ih =>
    obtain ⟨a', b'⟩ := d
    simp only [forget] at h
    split at h
    · exact ⟨List.mem_cons_of_mem _ (ih h).1, (ih h).2⟩
    · next h' =>
      rcases List.mem_cons.1 h with h | h
      · subst h; exact ⟨List.mem_cons_self, h'⟩
      · exact ⟨List.mem_cons_of_mem _ (ih h).1, (ih h).2⟩

/-- In a canonical memory, what is listed is what is read. -/
theorem mem_iff_read {m : Memory} (h : m.wf) {a : Nat} {b : Byte} : (a, b) ∈ m ↔ m.read a = some b := by
  obtain ⟨h, -⟩ := h
  induction m with
  | nil => simp [read]
  | cons d m ih =>
    obtain ⟨a', b'⟩ := d
    obtain ⟨h1, h2⟩ := List.pairwise_cons.1 h
    by_cases e : a' = a
    · subst e
      have : ∀ x, (a', x) ∉ m := fun x hx => by simpa using h1 _ hx
      simp [read, this, eq_comm]
    · simp [read, e, ih h2, Ne.symm e]

/-- Writing a latch of the address space keeps the canonical form. -/
theorem write_wf {m : Memory} {a : Nat} {b : Byte} (h : m.wf) (ha : a < 128) : (m.write a b).wf := by
  obtain ⟨hp, hb⟩ := h
  refine ⟨?_, fun c hc => ?_⟩
  · induction m with
    | nil => simp [write]
    | cons d m ih =>
      obtain ⟨a', b'⟩ := d
      obtain ⟨h1, h2⟩ := List.pairwise_cons.1 hp
      simp only [write]
      split
      · next hlt =>
        refine List.pairwise_cons.2 ⟨fun c hc => ?_, hp⟩
        rcases List.mem_cons.1 hc with rfl | hc
        · exact hlt
        · exact lt_trans hlt (h1 c hc)
      · split
        · next heq => subst heq; exact List.pairwise_cons.2 ⟨h1, h2⟩
        · next hnlt hne =>
          refine List.pairwise_cons.2 ⟨fun c hc => ?_, ih h2 fun c hc => hb c (List.mem_cons_of_mem _ hc)⟩
          rcases mem_write hc with rfl | hc
          · show a' < a; omega
          · exact h1 c hc
  · rcases mem_write hc with rfl | hc
    · exact ha
    · exact hb c hc

/-- Forgetting a latch keeps the canonical form. -/
theorem forget_wf {m : Memory} {a : Nat} (h : m.wf) : (m.forget a).wf := by
  obtain ⟨hp, hb⟩ := h
  refine ⟨?_, fun c hc => hb c (mem_forget hc).1⟩
  induction m with
  | nil => simp [forget]
  | cons d m ih =>
    obtain ⟨a', b'⟩ := d
    obtain ⟨h1, h2⟩ := List.pairwise_cons.1 hp
    have ih := ih h2 fun c hc => hb c (List.mem_cons_of_mem _ hc)
    simp only [forget]
    split
    · exact ih
    · exact List.pairwise_cons.2 ⟨fun c hc => h1 c (mem_forget hc).1, ih⟩

/-- The empty memory is canonical. -/
theorem nil_wf : wf [] := ⟨List.Pairwise.nil, fun _ h => by simp at h⟩

end Sys2Proof.Machine.Memory
end

