-- ==== Sys2Proof/Laws/State.lean ====
section
/-! SUPPORT. One lemma per field per update of the state: what each shared operation leaves in each field. -/

namespace Sys2Proof.Machine.State

variable (s : State)

/-! ### `writeAddr` -/

@[simp] theorem writeAddr_addr (a : Addr) : (s.writeAddr a).addr = a := rfl
@[simp] theorem writeAddr_bl (a : Addr) : (s.writeAddr a).bl = s.bl := rfl
@[simp] theorem writeAddr_width (a : Addr) : (s.writeAddr a).width = s.width := rfl
@[simp] theorem writeAddr_phase (a : Addr) : (s.writeAddr a).phase = s.phase := rfl
@[simp] theorem writeAddr_q (a : Addr) : (s.writeAddr a).q = s.q := rfl
@[simp] theorem writeAddr_cur (a : Addr) : (s.writeAddr a).cur = s.cur := rfl
@[simp] theorem writeAddr_mem (a : Addr) : (s.writeAddr a).mem = s.mem := rfl
@[simp] theorem writeAddr_wire (a : Addr) : (s.writeAddr a).wire = s.wire := rfl
@[simp] theorem writeAddr_lineHeld (a : Addr) : (s.writeAddr a).lineHeld = s.lineHeld := rfl
@[simp] theorem writeAddr_pulses (a : Addr) : (s.writeAddr a).pulses = s.pulses := rfl
@[simp] theorem writeAddr_trace (a : Addr) : (s.writeAddr a).trace = s.trace := rfl
@[simp] theorem writeAddr_now (a : Addr) : (s.writeAddr a).now = s.now := rfl
@[simp] theorem writeAddr_offers (a : Addr) : (s.writeAddr a).offers = s.offers := rfl
@[simp] theorem writeAddr_busIn (a : Addr) : (s.writeAddr a).busIn = s.busIn := rfl
@[simp] theorem writeAddr_cfg (a : Addr) : (s.writeAddr a).cfg = s.cfg := rfl
@[simp] theorem writeAddr_draws (a : Addr) : (s.writeAddr a).draws = s.draws := rfl
@[simp] theorem writeAddr_steps (a : Addr) : (s.writeAddr a).steps = s.steps := rfl

/-! ### `writeWidth` -/

@[simp] theorem writeWidth_addr (w : Byte) : (s.writeWidth w).addr = s.addr := rfl
@[simp] theorem writeWidth_bl (w : Byte) : (s.writeWidth w).bl = s.bl := rfl
@[simp] theorem writeWidth_width (w : Byte) : (s.writeWidth w).width = w := rfl
@[simp] theorem writeWidth_phase (w : Byte) : (s.writeWidth w).phase = s.phase := rfl
@[simp] theorem writeWidth_q (w : Byte) : (s.writeWidth w).q = s.q := rfl
@[simp] theorem writeWidth_cur (w : Byte) : (s.writeWidth w).cur = s.cur := rfl
@[simp] theorem writeWidth_mem (w : Byte) : (s.writeWidth w).mem = s.mem := rfl
@[simp] theorem writeWidth_wire (w : Byte) : (s.writeWidth w).wire = s.wire := rfl
@[simp] theorem writeWidth_lineHeld (w : Byte) : (s.writeWidth w).lineHeld = s.lineHeld := rfl
@[simp] theorem writeWidth_pulses (w : Byte) : (s.writeWidth w).pulses = s.pulses := rfl
@[simp] theorem writeWidth_trace (w : Byte) : (s.writeWidth w).trace = s.trace := rfl
@[simp] theorem writeWidth_now (w : Byte) : (s.writeWidth w).now = s.now := rfl
@[simp] theorem writeWidth_offers (w : Byte) : (s.writeWidth w).offers = s.offers := rfl
@[simp] theorem writeWidth_busIn (w : Byte) : (s.writeWidth w).busIn = s.busIn := rfl
@[simp] theorem writeWidth_cfg (w : Byte) : (s.writeWidth w).cfg = s.cfg := rfl
@[simp] theorem writeWidth_draws (w : Byte) : (s.writeWidth w).draws = s.draws := rfl
@[simp] theorem writeWidth_steps (w : Byte) : (s.writeWidth w).steps = s.steps := rfl

/-! ### `writeBl` -/

@[simp] theorem writeBl_addr (m : Byte) : (s.writeBl m).addr = s.addr := rfl
@[simp] theorem writeBl_bl (m : Byte) : (s.writeBl m).bl = m &&& blBits := rfl
@[simp] theorem writeBl_width (m : Byte) : (s.writeBl m).width = s.width := rfl
@[simp] theorem writeBl_phase (m : Byte) : (s.writeBl m).phase = s.phase := rfl
@[simp] theorem writeBl_q (m : Byte) : (s.writeBl m).q = s.q := rfl
@[simp] theorem writeBl_cur (m : Byte) : (s.writeBl m).cur = s.cur := rfl
@[simp] theorem writeBl_mem (m : Byte) : (s.writeBl m).mem = s.mem := rfl
@[simp] theorem writeBl_wire (m : Byte) : (s.writeBl m).wire = s.wire := rfl
@[simp] theorem writeBl_lineHeld (m : Byte) : (s.writeBl m).lineHeld = s.lineHeld := rfl
@[simp] theorem writeBl_pulses (m : Byte) : (s.writeBl m).pulses = s.pulses := rfl
@[simp] theorem writeBl_trace (m : Byte) : (s.writeBl m).trace = s.trace := rfl
@[simp] theorem writeBl_now (m : Byte) : (s.writeBl m).now = s.now := rfl
@[simp] theorem writeBl_offers (m : Byte) : (s.writeBl m).offers = s.offers := rfl
@[simp] theorem writeBl_busIn (m : Byte) : (s.writeBl m).busIn = s.busIn := rfl
@[simp] theorem writeBl_cfg (m : Byte) : (s.writeBl m).cfg = s.cfg := rfl
@[simp] theorem writeBl_draws (m : Byte) : (s.writeBl m).draws = s.draws := rfl
@[simp] theorem writeBl_steps (m : Byte) : (s.writeBl m).steps = s.steps := rfl

/-! ### `setbl` -/

@[simp] theorem setbl_addr (m : Byte) : (s.setbl m).addr = s.addr := rfl
@[simp] theorem setbl_bl (m : Byte) : (s.setbl m).bl = m &&& blBits := rfl
@[simp] theorem setbl_width (m : Byte) : (s.setbl m).width = s.width := rfl
@[simp] theorem setbl_phase (m : Byte) : (s.setbl m).phase = s.phase := rfl
@[simp] theorem setbl_q (m : Byte) : (s.setbl m).q = s.q := rfl
@[simp] theorem setbl_cur (m : Byte) : (s.setbl m).cur = s.cur := rfl
@[simp] theorem setbl_mem (m : Byte) : (s.setbl m).mem = s.mem := rfl
@[simp] theorem setbl_wire (m : Byte) : (s.setbl m).wire = s.wire := rfl
@[simp] theorem setbl_lineHeld (m : Byte) : (s.setbl m).lineHeld = s.lineHeld := rfl
@[simp] theorem setbl_pulses (m : Byte) : (s.setbl m).pulses = s.pulses := rfl
@[simp] theorem setbl_trace (m : Byte) : (s.setbl m).trace = s.trace := rfl
@[simp] theorem setbl_now (m : Byte) : (s.setbl m).now = s.now := rfl
@[simp] theorem setbl_offers (m : Byte) : (s.setbl m).offers = s.offers := rfl
@[simp] theorem setbl_busIn (m : Byte) : (s.setbl m).busIn = s.busIn := rfl
@[simp] theorem setbl_cfg (m : Byte) : (s.setbl m).cfg = s.cfg := rfl
@[simp] theorem setbl_draws (m : Byte) : (s.setbl m).draws = s.draws := rfl
@[simp] theorem setbl_steps (m : Byte) : (s.setbl m).steps = s.steps := rfl

/-! ### `emit` -/

@[simp] theorem emit_addr (e : Event) : (s.emit e).addr = s.addr := rfl
@[simp] theorem emit_bl (e : Event) : (s.emit e).bl = s.bl := rfl
@[simp] theorem emit_width (e : Event) : (s.emit e).width = s.width := rfl
@[simp] theorem emit_phase (e : Event) : (s.emit e).phase = s.phase := rfl
@[simp] theorem emit_q (e : Event) : (s.emit e).q = s.q := rfl
@[simp] theorem emit_cur (e : Event) : (s.emit e).cur = s.cur := rfl
@[simp] theorem emit_mem (e : Event) : (s.emit e).mem = s.mem := rfl
@[simp] theorem emit_wire (e : Event) : (s.emit e).wire = s.wire := rfl
@[simp] theorem emit_lineHeld (e : Event) : (s.emit e).lineHeld = s.lineHeld := rfl
@[simp] theorem emit_pulses (e : Event) : (s.emit e).pulses = s.pulses := rfl
@[simp] theorem emit_trace (e : Event) : (s.emit e).trace = s.trace ++ [e] := rfl
@[simp] theorem emit_now (e : Event) : (s.emit e).now = s.now := rfl
@[simp] theorem emit_offers (e : Event) : (s.emit e).offers = s.offers := rfl
@[simp] theorem emit_busIn (e : Event) : (s.emit e).busIn = s.busIn := rfl
@[simp] theorem emit_cfg (e : Event) : (s.emit e).cfg = s.cfg := rfl
@[simp] theorem emit_draws (e : Event) : (s.emit e).draws = s.draws := rfl
@[simp] theorem emit_steps (e : Event) : (s.emit e).steps = s.steps := rfl

/-! ### `refuse` -/

@[simp] theorem refuse_addr (resp : Response) : (s.refuse resp).addr = s.addr := rfl
@[simp] theorem refuse_bl (resp : Response) : (s.refuse resp).bl = s.bl := rfl
@[simp] theorem refuse_width (resp : Response) : (s.refuse resp).width = s.width := rfl
@[simp] theorem refuse_phase (resp : Response) : (s.refuse resp).phase = s.phase := rfl
@[simp] theorem refuse_q (resp : Response) : (s.refuse resp).q = s.q := rfl
@[simp] theorem refuse_cur (resp : Response) : (s.refuse resp).cur = s.cur := rfl
@[simp] theorem refuse_mem (resp : Response) : (s.refuse resp).mem = s.mem := rfl
@[simp] theorem refuse_wire (resp : Response) : (s.refuse resp).wire = s.wire := rfl
@[simp] theorem refuse_lineHeld (resp : Response) : (s.refuse resp).lineHeld = s.lineHeld := rfl
@[simp] theorem refuse_pulses (resp : Response) : (s.refuse resp).pulses = s.pulses := rfl
@[simp] theorem refuse_trace (resp : Response) : (s.refuse resp).trace = s.trace ++ [.r resp] := rfl
@[simp] theorem refuse_now (resp : Response) : (s.refuse resp).now = s.now := rfl
@[simp] theorem refuse_offers (resp : Response) : (s.refuse resp).offers = s.offers := rfl
@[simp] theorem refuse_busIn (resp : Response) : (s.refuse resp).busIn = s.busIn := rfl
@[simp] theorem refuse_cfg (resp : Response) : (s.refuse resp).cfg = s.cfg := rfl
@[simp] theorem refuse_draws (resp : Response) : (s.refuse resp).draws = s.draws := rfl
@[simp] theorem refuse_steps (resp : Response) : (s.refuse resp).steps = s.steps := rfl

/-! ### `done` -/

@[simp] theorem done_addr (resp : Response) : (s.done resp).addr = s.addr := rfl
@[simp] theorem done_bl (resp : Response) : (s.done resp).bl = s.bl := rfl
@[simp] theorem done_width (resp : Response) : (s.done resp).width = s.width := rfl
@[simp] theorem done_phase (resp : Response) : (s.done resp).phase = .idle := rfl
@[simp] theorem done_q (resp : Response) : (s.done resp).q = s.q := rfl
@[simp] theorem done_cur (resp : Response) : (s.done resp).cur = none := rfl
@[simp] theorem done_mem (resp : Response) : (s.done resp).mem = s.mem := rfl
@[simp] theorem done_wire (resp : Response) : (s.done resp).wire = s.wire := rfl
@[simp] theorem done_lineHeld (resp : Response) : (s.done resp).lineHeld = s.lineHeld := rfl
@[simp] theorem done_pulses (resp : Response) : (s.done resp).pulses = s.pulses := rfl
@[simp] theorem done_trace (resp : Response) : (s.done resp).trace = s.trace ++ [.r resp] := rfl
@[simp] theorem done_now (resp : Response) : (s.done resp).now = s.now := rfl
@[simp] theorem done_offers (resp : Response) : (s.done resp).offers = s.offers := rfl
@[simp] theorem done_busIn (resp : Response) : (s.done resp).busIn = s.busIn := rfl
@[simp] theorem done_cfg (resp : Response) : (s.done resp).cfg = s.cfg := rfl
@[simp] theorem done_draws (resp : Response) : (s.done resp).draws = s.draws := rfl
@[simp] theorem done_steps (resp : Response) : (s.done resp).steps = s.steps := rfl

/-! ### `raise` -/

@[simp] theorem raise_addr (e : Response) : (s.raise e).addr = s.addr := rfl
@[simp] theorem raise_bl (e : Response) : (s.raise e).bl = s.bl := rfl
@[simp] theorem raise_width (e : Response) : (s.raise e).width = s.width := rfl
@[simp] theorem raise_phase (e : Response) : (s.raise e).phase = .idle := rfl
@[simp] theorem raise_q (e : Response) : (s.raise e).q = [] := rfl
@[simp] theorem raise_cur (e : Response) : (s.raise e).cur = none := rfl
@[simp] theorem raise_mem (e : Response) : (s.raise e).mem = s.mem := rfl
@[simp] theorem raise_wire (e : Response) : (s.raise e).wire = s.wire := rfl
@[simp] theorem raise_lineHeld (e : Response) : (s.raise e).lineHeld = s.lineHeld := rfl
@[simp] theorem raise_pulses (e : Response) : (s.raise e).pulses = s.pulses := rfl
@[simp] theorem raise_trace (e : Response) : (s.raise e).trace = s.trace ++ [.r e] := rfl
@[simp] theorem raise_now (e : Response) : (s.raise e).now = s.now := rfl
@[simp] theorem raise_offers (e : Response) : (s.raise e).offers = s.offers := rfl
@[simp] theorem raise_busIn (e : Response) : (s.raise e).busIn = s.busIn := rfl
@[simp] theorem raise_cfg (e : Response) : (s.raise e).cfg = s.cfg := rfl
@[simp] theorem raise_draws (e : Response) : (s.raise e).draws = s.draws := rfl
@[simp] theorem raise_steps (e : Response) : (s.raise e).steps = s.steps := rfl

/-! ### `accept` -/

@[simp] theorem accept_addr (i : Instr) (ops : List MicroOp) : (s.accept i ops).addr = s.addr := rfl
@[simp] theorem accept_bl (i : Instr) (ops : List MicroOp) : (s.accept i ops).bl = s.bl := rfl
@[simp] theorem accept_width (i : Instr) (ops : List MicroOp) : (s.accept i ops).width = s.width := rfl
@[simp] theorem accept_phase (i : Instr) (ops : List MicroOp) : (s.accept i ops).phase = .busy := rfl
@[simp] theorem accept_q (i : Instr) (ops : List MicroOp) : (s.accept i ops).q = ops := rfl
@[simp] theorem accept_cur (i : Instr) (ops : List MicroOp) : (s.accept i ops).cur = some i := rfl
@[simp] theorem accept_mem (i : Instr) (ops : List MicroOp) : (s.accept i ops).mem = s.mem := rfl
@[simp] theorem accept_wire (i : Instr) (ops : List MicroOp) : (s.accept i ops).wire = s.wire := rfl
@[simp] theorem accept_lineHeld (i : Instr) (ops : List MicroOp) : (s.accept i ops).lineHeld = s.lineHeld := rfl
@[simp] theorem accept_pulses (i : Instr) (ops : List MicroOp) : (s.accept i ops).pulses = s.pulses := rfl
@[simp] theorem accept_trace (i : Instr) (ops : List MicroOp) : (s.accept i ops).trace = s.trace := rfl
@[simp] theorem accept_now (i : Instr) (ops : List MicroOp) : (s.accept i ops).now = s.now := rfl
@[simp] theorem accept_offers (i : Instr) (ops : List MicroOp) : (s.accept i ops).offers = s.offers := rfl
@[simp] theorem accept_busIn (i : Instr) (ops : List MicroOp) : (s.accept i ops).busIn = s.busIn := rfl
@[simp] theorem accept_cfg (i : Instr) (ops : List MicroOp) : (s.accept i ops).cfg = s.cfg := rfl
@[simp] theorem accept_draws (i : Instr) (ops : List MicroOp) : (s.accept i ops).draws = s.draws := rfl
@[simp] theorem accept_steps (i : Instr) (ops : List MicroOp) : (s.accept i ops).steps = s.steps := rfl

/-! ### `wait` -/

@[simp] theorem wait_addr (d : Nat) : (s.wait d).addr = s.addr := rfl
@[simp] theorem wait_bl (d : Nat) : (s.wait d).bl = s.bl := rfl
@[simp] theorem wait_width (d : Nat) : (s.wait d).width = s.width := rfl
@[simp] theorem wait_phase (d : Nat) : (s.wait d).phase = s.phase := rfl
@[simp] theorem wait_q (d : Nat) : (s.wait d).q = s.q := rfl
@[simp] theorem wait_cur (d : Nat) : (s.wait d).cur = s.cur := rfl
@[simp] theorem wait_mem (d : Nat) : (s.wait d).mem = s.mem := rfl
@[simp] theorem wait_wire (d : Nat) : (s.wait d).wire = s.wire := rfl
@[simp] theorem wait_lineHeld (d : Nat) : (s.wait d).lineHeld = s.lineHeld := rfl
@[simp] theorem wait_pulses (d : Nat) : (s.wait d).pulses = s.pulses := rfl
@[simp] theorem wait_trace (d : Nat) : (s.wait d).trace = s.trace ++ [.w d] := rfl
@[simp] theorem wait_now (d : Nat) : (s.wait d).now = if d = 0 then s.now else s.now + d + Config.freeOverrun s.draws := rfl
@[simp] theorem wait_offers (d : Nat) : (s.wait d).offers = s.offers := rfl
@[simp] theorem wait_busIn (d : Nat) : (s.wait d).busIn = s.busIn := rfl
@[simp] theorem wait_cfg (d : Nat) : (s.wait d).cfg = s.cfg := rfl
@[simp] theorem wait_draws (d : Nat) : (s.wait d).draws = s.draws + 1 := rfl
@[simp] theorem wait_steps (d : Nat) : (s.wait d).steps = s.steps := rfl

/-! ### `transact` -/

@[simp] theorem transact_addr (rs : Bool) (v : Byte) : (s.transact rs v).addr = s.addr := rfl
@[simp] theorem transact_bl (rs : Bool) (v : Byte) : (s.transact rs v).bl = s.bl := rfl
@[simp] theorem transact_width (rs : Bool) (v : Byte) : (s.transact rs v).width = s.width := rfl
@[simp] theorem transact_phase (rs : Bool) (v : Byte) : (s.transact rs v).phase = s.phase := rfl
@[simp] theorem transact_q (rs : Bool) (v : Byte) : (s.transact rs v).q = s.q := rfl
@[simp] theorem transact_cur (rs : Bool) (v : Byte) : (s.transact rs v).cur = s.cur := rfl
@[simp] theorem transact_mem (rs : Bool) (v : Byte) : (s.transact rs v).mem = s.mem := rfl
@[simp] theorem transact_wire (rs : Bool) (v : Byte) : (s.transact rs v).wire = s.wire := rfl
@[simp] theorem transact_lineHeld (rs : Bool) (v : Byte) : (s.transact rs v).lineHeld = s.lineHeld := rfl
@[simp] theorem transact_pulses (rs : Bool) (v : Byte) : (s.transact rs v).pulses = s.pulses := rfl
@[simp] theorem transact_trace (rs : Bool) (v : Byte) : (s.transact rs v).trace = s.trace ++ [.x s.addr (frame rs v s.readBl) s.nextOutcome] := rfl
@[simp] theorem transact_now (rs : Bool) (v : Byte) : (s.transact rs v).now = s.now + Config.freeDuration s.draws := rfl
@[simp] theorem transact_offers (rs : Bool) (v : Byte) : (s.transact rs v).offers = s.offers := rfl
@[simp] theorem transact_busIn (rs : Bool) (v : Byte) : (s.transact rs v).busIn = s.busIn.tail := rfl
@[simp] theorem transact_cfg (rs : Bool) (v : Byte) : (s.transact rs v).cfg = s.cfg := rfl
@[simp] theorem transact_draws (rs : Bool) (v : Byte) : (s.transact rs v).draws = s.draws + 1 := rfl
@[simp] theorem transact_steps (rs : Bool) (v : Byte) : (s.transact rs v).steps = s.steps := rfl

/-! ### `loseExpander` -/

@[simp] theorem loseExpander_addr : s.loseExpander.addr = s.addr := rfl
@[simp] theorem loseExpander_bl : s.loseExpander.bl = s.bl := rfl
@[simp] theorem loseExpander_width : s.loseExpander.width = s.width := rfl
@[simp] theorem loseExpander_phase : s.loseExpander.phase = s.phase := rfl
@[simp] theorem loseExpander_q : s.loseExpander.q = s.q := rfl
@[simp] theorem loseExpander_cur : s.loseExpander.cur = s.cur := rfl
@[simp] theorem loseExpander_mem : s.loseExpander.mem = s.mem.forget s.addr.toNat := rfl
@[simp] theorem loseExpander_wire : s.loseExpander.wire = s.wire := rfl
@[simp] theorem loseExpander_lineHeld : s.loseExpander.lineHeld = s.lineHeld := rfl
@[simp] theorem loseExpander_pulses : s.loseExpander.pulses = s.pulses ++ Config.freePulses s.draws := rfl
@[simp] theorem loseExpander_trace : s.loseExpander.trace = s.trace := rfl
@[simp] theorem loseExpander_now : s.loseExpander.now = s.now := rfl
@[simp] theorem loseExpander_offers : s.loseExpander.offers = s.offers := rfl
@[simp] theorem loseExpander_busIn : s.loseExpander.busIn = s.busIn := rfl
@[simp] theorem loseExpander_cfg : s.loseExpander.cfg = s.cfg := rfl
@[simp] theorem loseExpander_draws : s.loseExpander.draws = s.draws := rfl
@[simp] theorem loseExpander_steps : s.loseExpander.steps = s.steps := rfl

/-! ### `expanderWrite` -/

@[simp] theorem expanderWrite_addr (b : Byte) : (s.expanderWrite b).addr = s.addr := rfl
@[simp] theorem expanderWrite_bl (b : Byte) : (s.expanderWrite b).bl = s.bl := rfl
@[simp] theorem expanderWrite_width (b : Byte) : (s.expanderWrite b).width = s.width := rfl
@[simp] theorem expanderWrite_phase (b : Byte) : (s.expanderWrite b).phase = s.phase := rfl
@[simp] theorem expanderWrite_q (b : Byte) : (s.expanderWrite b).q = s.q := rfl
@[simp] theorem expanderWrite_cur (b : Byte) : (s.expanderWrite b).cur = s.cur := rfl
@[simp] theorem expanderWrite_mem (b : Byte) : (s.expanderWrite b).mem = s.mem.write s.addr.toNat b := rfl
@[simp] theorem expanderWrite_wire (b : Byte) : (s.expanderWrite b).wire = s.wire := rfl
@[simp] theorem expanderWrite_lineHeld (b : Byte) : (s.expanderWrite b).lineHeld = s.lineHeld := rfl
@[simp] theorem expanderWrite_pulses (b : Byte) : (s.expanderWrite b).pulses = if !lineE b && lineE s.outLatch then s.pulses ++ [⟨lineRs b, lineD b⟩] else s.pulses := rfl
@[simp] theorem expanderWrite_trace (b : Byte) : (s.expanderWrite b).trace = s.trace := rfl
@[simp] theorem expanderWrite_now (b : Byte) : (s.expanderWrite b).now = s.now := rfl
@[simp] theorem expanderWrite_offers (b : Byte) : (s.expanderWrite b).offers = s.offers := rfl
@[simp] theorem expanderWrite_busIn (b : Byte) : (s.expanderWrite b).busIn = s.busIn := rfl
@[simp] theorem expanderWrite_cfg (b : Byte) : (s.expanderWrite b).cfg = s.cfg := rfl
@[simp] theorem expanderWrite_draws (b : Byte) : (s.expanderWrite b).draws = s.draws := rfl
@[simp] theorem expanderWrite_steps (b : Byte) : (s.expanderWrite b).steps = s.steps := rfl

/-! ### `placeByte` -/

@[simp] theorem placeByte_addr (b : Byte) : (s.placeByte b).addr = s.addr := rfl
@[simp] theorem placeByte_bl (b : Byte) : (s.placeByte b).bl = s.bl := rfl
@[simp] theorem placeByte_width (b : Byte) : (s.placeByte b).width = s.width := rfl
@[simp] theorem placeByte_phase (b : Byte) : (s.placeByte b).phase = s.phase := rfl
@[simp] theorem placeByte_q (b : Byte) : (s.placeByte b).q = s.q := rfl
@[simp] theorem placeByte_cur (b : Byte) : (s.placeByte b).cur = s.cur := rfl
@[simp] theorem placeByte_mem (b : Byte) : (s.placeByte b).mem = s.mem := rfl
@[simp] theorem placeByte_wire (b : Byte) : (s.placeByte b).wire = b :: s.wire := rfl
@[simp] theorem placeByte_lineHeld (b : Byte) : (s.placeByte b).lineHeld = s.lineHeld := rfl
@[simp] theorem placeByte_pulses (b : Byte) : (s.placeByte b).pulses = s.pulses := rfl
@[simp] theorem placeByte_trace (b : Byte) : (s.placeByte b).trace = s.trace := rfl
@[simp] theorem placeByte_now (b : Byte) : (s.placeByte b).now = s.now := rfl
@[simp] theorem placeByte_offers (b : Byte) : (s.placeByte b).offers = s.offers := rfl
@[simp] theorem placeByte_busIn (b : Byte) : (s.placeByte b).busIn = s.busIn := rfl
@[simp] theorem placeByte_cfg (b : Byte) : (s.placeByte b).cfg = s.cfg := rfl
@[simp] theorem placeByte_draws (b : Byte) : (s.placeByte b).draws = s.draws := rfl
@[simp] theorem placeByte_steps (b : Byte) : (s.placeByte b).steps = s.steps := rfl

/-! ### `placeRequest` -/

@[simp] theorem placeRequest_addr (r : Request) : (s.placeRequest r).addr = s.addr := rfl
@[simp] theorem placeRequest_bl (r : Request) : (s.placeRequest r).bl = s.bl := rfl
@[simp] theorem placeRequest_width (r : Request) : (s.placeRequest r).width = s.width := rfl
@[simp] theorem placeRequest_phase (r : Request) : (s.placeRequest r).phase = .idle := rfl
@[simp] theorem placeRequest_q (r : Request) : (s.placeRequest r).q = [] := rfl
@[simp] theorem placeRequest_cur (r : Request) : (s.placeRequest r).cur = none := rfl
@[simp] theorem placeRequest_mem (r : Request) : (s.placeRequest r).mem = s.mem := rfl
@[simp] theorem placeRequest_wire (r : Request) : (s.placeRequest r).wire = [] := rfl
@[simp] theorem placeRequest_lineHeld (r : Request) : (s.placeRequest r).lineHeld = none := rfl
@[simp] theorem placeRequest_pulses (r : Request) : (s.placeRequest r).pulses = s.pulses := rfl
@[simp] theorem placeRequest_trace (r : Request) : (s.placeRequest r).trace = s.trace := rfl
@[simp] theorem placeRequest_now (r : Request) : (s.placeRequest r).now = s.now := rfl
@[simp] theorem placeRequest_offers (r : Request) : (s.placeRequest r).offers = r :: s.offers := rfl
@[simp] theorem placeRequest_busIn (r : Request) : (s.placeRequest r).busIn = s.busIn := rfl
@[simp] theorem placeRequest_cfg (r : Request) : (s.placeRequest r).cfg = s.cfg := rfl
@[simp] theorem placeRequest_draws (r : Request) : (s.placeRequest r).draws = s.draws := rfl
@[simp] theorem placeRequest_steps (r : Request) : (s.placeRequest r).steps = s.steps := rfl

/-! ### `setQ` -/

@[simp] theorem setQ_addr (ops : List MicroOp) : (s.setQ ops).addr = s.addr := rfl
@[simp] theorem setQ_bl (ops : List MicroOp) : (s.setQ ops).bl = s.bl := rfl
@[simp] theorem setQ_width (ops : List MicroOp) : (s.setQ ops).width = s.width := rfl
@[simp] theorem setQ_phase (ops : List MicroOp) : (s.setQ ops).phase = s.phase := rfl
@[simp] theorem setQ_q (ops : List MicroOp) : (s.setQ ops).q = ops := rfl
@[simp] theorem setQ_cur (ops : List MicroOp) : (s.setQ ops).cur = s.cur := rfl
@[simp] theorem setQ_mem (ops : List MicroOp) : (s.setQ ops).mem = s.mem := rfl
@[simp] theorem setQ_wire (ops : List MicroOp) : (s.setQ ops).wire = s.wire := rfl
@[simp] theorem setQ_lineHeld (ops : List MicroOp) : (s.setQ ops).lineHeld = s.lineHeld := rfl
@[simp] theorem setQ_pulses (ops : List MicroOp) : (s.setQ ops).pulses = s.pulses := rfl
@[simp] theorem setQ_trace (ops : List MicroOp) : (s.setQ ops).trace = s.trace := rfl
@[simp] theorem setQ_now (ops : List MicroOp) : (s.setQ ops).now = s.now := rfl
@[simp] theorem setQ_offers (ops : List MicroOp) : (s.setQ ops).offers = s.offers := rfl
@[simp] theorem setQ_busIn (ops : List MicroOp) : (s.setQ ops).busIn = s.busIn := rfl
@[simp] theorem setQ_cfg (ops : List MicroOp) : (s.setQ ops).cfg = s.cfg := rfl
@[simp] theorem setQ_draws (ops : List MicroOp) : (s.setQ ops).draws = s.draws := rfl
@[simp] theorem setQ_steps (ops : List MicroOp) : (s.setQ ops).steps = s.steps := rfl

/-! ### `setWire` -/

@[simp] theorem setWire_addr (bytes : List Byte) : (s.setWire bytes).addr = s.addr := rfl
@[simp] theorem setWire_bl (bytes : List Byte) : (s.setWire bytes).bl = s.bl := rfl
@[simp] theorem setWire_width (bytes : List Byte) : (s.setWire bytes).width = s.width := rfl
@[simp] theorem setWire_phase (bytes : List Byte) : (s.setWire bytes).phase = s.phase := rfl
@[simp] theorem setWire_q (bytes : List Byte) : (s.setWire bytes).q = s.q := rfl
@[simp] theorem setWire_cur (bytes : List Byte) : (s.setWire bytes).cur = s.cur := rfl
@[simp] theorem setWire_mem (bytes : List Byte) : (s.setWire bytes).mem = s.mem := rfl
@[simp] theorem setWire_wire (bytes : List Byte) : (s.setWire bytes).wire = bytes := rfl
@[simp] theorem setWire_lineHeld (bytes : List Byte) : (s.setWire bytes).lineHeld = if bytes = [] then none else s.lineHeld := rfl
@[simp] theorem setWire_pulses (bytes : List Byte) : (s.setWire bytes).pulses = s.pulses := rfl
@[simp] theorem setWire_trace (bytes : List Byte) : (s.setWire bytes).trace = s.trace := rfl
@[simp] theorem setWire_now (bytes : List Byte) : (s.setWire bytes).now = s.now := rfl
@[simp] theorem setWire_offers (bytes : List Byte) : (s.setWire bytes).offers = s.offers := rfl
@[simp] theorem setWire_busIn (bytes : List Byte) : (s.setWire bytes).busIn = s.busIn := rfl
@[simp] theorem setWire_cfg (bytes : List Byte) : (s.setWire bytes).cfg = s.cfg := rfl
@[simp] theorem setWire_draws (bytes : List Byte) : (s.setWire bytes).draws = s.draws := rfl
@[simp] theorem setWire_steps (bytes : List Byte) : (s.setWire bytes).steps = s.steps := rfl

/-! ### `setOffers` -/

@[simp] theorem setOffers_addr (rs : List Request) : (s.setOffers rs).addr = s.addr := rfl
@[simp] theorem setOffers_bl (rs : List Request) : (s.setOffers rs).bl = s.bl := rfl
@[simp] theorem setOffers_width (rs : List Request) : (s.setOffers rs).width = s.width := rfl
@[simp] theorem setOffers_phase (rs : List Request) : (s.setOffers rs).phase = s.phase := rfl
@[simp] theorem setOffers_q (rs : List Request) : (s.setOffers rs).q = s.q := rfl
@[simp] theorem setOffers_cur (rs : List Request) : (s.setOffers rs).cur = s.cur := rfl
@[simp] theorem setOffers_mem (rs : List Request) : (s.setOffers rs).mem = s.mem := rfl
@[simp] theorem setOffers_wire (rs : List Request) : (s.setOffers rs).wire = s.wire := rfl
@[simp] theorem setOffers_lineHeld (rs : List Request) : (s.setOffers rs).lineHeld = s.lineHeld := rfl
@[simp] theorem setOffers_pulses (rs : List Request) : (s.setOffers rs).pulses = s.pulses := rfl
@[simp] theorem setOffers_trace (rs : List Request) : (s.setOffers rs).trace = s.trace := rfl
@[simp] theorem setOffers_now (rs : List Request) : (s.setOffers rs).now = s.now := rfl
@[simp] theorem setOffers_offers (rs : List Request) : (s.setOffers rs).offers = rs := rfl
@[simp] theorem setOffers_busIn (rs : List Request) : (s.setOffers rs).busIn = s.busIn := rfl
@[simp] theorem setOffers_cfg (rs : List Request) : (s.setOffers rs).cfg = s.cfg := rfl
@[simp] theorem setOffers_draws (rs : List Request) : (s.setOffers rs).draws = s.draws := rfl
@[simp] theorem setOffers_steps (rs : List Request) : (s.setOffers rs).steps = s.steps := rfl

/-! ### `issue` -/

@[simp] theorem issue_addr (shown : Bool) (bytes : List Byte) : (s.issue shown bytes).addr = s.addr := rfl
@[simp] theorem issue_bl (shown : Bool) (bytes : List Byte) : (s.issue shown bytes).bl = s.bl := rfl
@[simp] theorem issue_width (shown : Bool) (bytes : List Byte) : (s.issue shown bytes).width = s.width := rfl
@[simp] theorem issue_phase (shown : Bool) (bytes : List Byte) : (s.issue shown bytes).phase = s.phase := rfl
@[simp] theorem issue_q (shown : Bool) (bytes : List Byte) : (s.issue shown bytes).q = s.q := rfl
@[simp] theorem issue_cur (shown : Bool) (bytes : List Byte) : (s.issue shown bytes).cur = s.cur := rfl
@[simp] theorem issue_mem (shown : Bool) (bytes : List Byte) : (s.issue shown bytes).mem = s.mem := rfl
@[simp] theorem issue_wire (shown : Bool) (bytes : List Byte) : (s.issue shown bytes).wire = bytes := rfl
@[simp] theorem issue_lineHeld (shown : Bool) (bytes : List Byte) : (s.issue shown bytes).lineHeld = some shown := rfl
@[simp] theorem issue_pulses (shown : Bool) (bytes : List Byte) : (s.issue shown bytes).pulses = s.pulses := rfl
@[simp] theorem issue_trace (shown : Bool) (bytes : List Byte) : (s.issue shown bytes).trace = s.trace := rfl
@[simp] theorem issue_now (shown : Bool) (bytes : List Byte) : (s.issue shown bytes).now = s.now := rfl
@[simp] theorem issue_offers (shown : Bool) (bytes : List Byte) : (s.issue shown bytes).offers = s.offers := rfl
@[simp] theorem issue_busIn (shown : Bool) (bytes : List Byte) : (s.issue shown bytes).busIn = s.busIn := rfl
@[simp] theorem issue_cfg (shown : Bool) (bytes : List Byte) : (s.issue shown bytes).cfg = s.cfg := rfl
@[simp] theorem issue_draws (shown : Bool) (bytes : List Byte) : (s.issue shown bytes).draws = s.draws := rfl
@[simp] theorem issue_steps (shown : Bool) (bytes : List Byte) : (s.issue shown bytes).steps = s.steps := rfl

/-! ### `pass` -/

@[simp] theorem pass_addr : s.pass.addr = s.addr := rfl
@[simp] theorem pass_bl : s.pass.bl = s.bl := rfl
@[simp] theorem pass_width : s.pass.width = s.width := rfl
@[simp] theorem pass_phase : s.pass.phase = s.phase := rfl
@[simp] theorem pass_q : s.pass.q = s.q := rfl
@[simp] theorem pass_cur : s.pass.cur = s.cur := rfl
@[simp] theorem pass_mem : s.pass.mem = s.mem := rfl
@[simp] theorem pass_wire : s.pass.wire = s.wire := rfl
@[simp] theorem pass_lineHeld : s.pass.lineHeld = s.lineHeld := rfl
@[simp] theorem pass_pulses : s.pass.pulses = s.pulses := rfl
@[simp] theorem pass_trace : s.pass.trace = s.trace := rfl
@[simp] theorem pass_now : s.pass.now = s.now + Config.freeStepTime s.steps := rfl
@[simp] theorem pass_offers : s.pass.offers = s.offers := rfl
@[simp] theorem pass_busIn : s.pass.busIn = s.busIn := rfl
@[simp] theorem pass_cfg : s.pass.cfg = s.cfg := rfl
@[simp] theorem pass_draws : s.pass.draws = s.draws := rfl
@[simp] theorem pass_steps : s.pass.steps = s.steps + 1 := rfl

end Sys2Proof.Machine.State
end

