-- ==== Sys2Proof/Laws/Ops.lean ====
section
/-! SUPPORT. What the shared operations do, once each: register reads, the micro-operations, the expander's write. -/

namespace Sys2Proof.Machine

/-- `BL` reads as one of its two masks, whatever the bits behind it (spec R24). -/
theorem readBl_cases (s : State) : s.readBl = 0x00#8 ∨ s.readBl = 0x08#8 := by
  simp only [State.readBl, blBits]
  generalize s.bl = b
  revert b; decide

/-- A masked value is one of the two masks. -/
theorem and_blBits_cases (m : Byte) : m &&& blBits = 0x00#8 ∨ m &&& blBits = 0x08#8 := by
  revert m; decide

/-- Masking twice is masking once. -/
@[simp] theorem and_blBits_idem (m : Byte) : m &&& blBits &&& blBits = m &&& blBits := by
  revert m; decide

/-- A mask is kept by the hard-wired bits. -/
@[simp] theorem blMask_and_blBits (f : Bool) : blMask f &&& blBits = blMask f := by
  cases f <;> decide

@[simp] theorem pInitBl_and_blBits (c : Config) (f : Bool) : pInitBl c f &&& blBits = pInitBl c f := by
  simp [pInitBl]

/-- `BL` after a write reads as what was written, its hard-wired bits 0. -/
@[simp] theorem readBl_writeBl (s : State) (m : Byte) : (s.writeBl m).readBl = m &&& blBits := by
  simp [State.readBl]

/-- A frame is four bytes (spec R48). -/
@[simp] theorem frame_length (rs : Bool) (v m : Byte) : (frame rs v m).length = 4 := by
  cases rs <;> rfl

/-- A success and an error of the three named kinds are admitted, whatever the further kinds are. -/
@[simp] theorem admits_ok (c : Config) : admits c .ok = true := rfl
@[simp] theorem admits_nack (c : Config) : admits c (.err .nack) = true := rfl
@[simp] theorem admits_arbLost (c : Config) : admits c (.err .arbLost) = true := rfl
@[simp] theorem admits_timeout (c : Config) : admits c (.err .timeout) = true := rfl

/-- A named outcome of a kind that there is, is the next outcome. -/
theorem nextOutcome_cons {s : State} {o : BusOutcome} {rest : List BusOutcome} (h : s.busIn = o :: rest)
    (ha : admits s.cfg o = true) : s.nextOutcome = o := by
  simp [State.nextOutcome, h, ha]

/-- Every outcome is `OK` or an error of a kind that there is (spec R204). -/
theorem nextOutcome_admitted (s : State) : admits s.cfg s.nextOutcome = true := by
  have draw : admits s.cfg s.drawOutcome = true := by
    simp only [State.drawOutcome]
    split
    · next h => exact h
    · rfl
  simp only [State.nextOutcome]
  split
  · exact draw
  · split
    · next h => exact h
    · exact draw

/-- A transaction that the bus takes puts its frame on the wire (spec R101). -/
theorem xfer_ok {s : State} {rs : Bool} {v : Byte} (h : s.nextOutcome = .ok) :
    s.xfer rs v = (s.transact rs v).issue s.backlightLine (frame rs v s.readBl) := by
  simp [State.xfer, h]

/-- A transaction that the bus fails aborts the request (spec R205). -/
theorem xfer_err {s : State} {rs : Bool} {v : Byte} {k : BusErrorKind} (h : s.nextOutcome = .err k) :
    s.xfer rs v = ((s.transact rs v).loseExpander).raise (.eBus k) := by
  simp [State.xfer, h]

/-- Everything an `XFER` can do: record its transaction and either put the frame on the wire or abort the request. -/
theorem xfer_cases (s : State) (rs : Bool) (v : Byte) :
    (s.nextOutcome = .ok ∧ s.xfer rs v = (s.transact rs v).issue s.backlightLine (frame rs v s.readBl)) ∨
    ∃ k, s.nextOutcome = .err k ∧ s.xfer rs v = ((s.transact rs v).loseExpander).raise (.eBus k) := by
  rcases h : s.nextOutcome with _ | k
  · exact .inl ⟨rfl, xfer_ok h⟩
  · exact .inr ⟨k, rfl, xfer_err h⟩

/-- A wait lets at least its operand pass (spec R102). -/
theorem wait_now_ge (s : State) (d : Nat) : s.now + d ≤ (s.wait d).now := by
  simp only [State.wait_now]; split <;> omega

/-- What the expander holds where the latch is known. -/
theorem outLatch_of_read {s : State} {b : Byte} (h : s.mem.read s.addr.toNat = some b) : s.outLatch = b := by
  simp [State.outLatch, h]

/-- During a transaction the backlight line shows what it showed when it was issued (spec R252). -/
theorem backlightLine_of_held {s : State} {shown : Bool} (h : s.lineHeld = some shown) : s.backlightLine = shown := by
  simp [State.backlightLine, h]

/-- Between transactions the backlight line shows the backlight bit of the latch (spec R28). -/
theorem backlightLine_of_not_held {s : State} (h : s.lineHeld = none) : s.backlightLine = lineBlk s.outLatch := by
  simp [State.backlightLine, h]

/-- Between transactions the visible backlight follows a known latch where the wiring exposes it (spec R126). -/
theorem backlightLit_of_read {s : State} {b : Byte} (hl : s.lineHeld = none) (h : s.mem.read s.addr.toNat = some b) :
    s.backlightLit = (match s.cfg.wiring with | .line => lineBlk b | .fixed lit => lit) := by
  cases hw : s.cfg.wiring <;> simp [State.backlightLit, hw, backlightLine_of_not_held hl, outLatch_of_read h]

/-- After a write the expander holds the byte (spec R41). -/
@[simp] theorem outLatch_expanderWrite (s : State) (b : Byte) : (s.expanderWrite b).outLatch = b := by
  simp [State.outLatch]

@[simp] theorem outLatch_setWire (s : State) (bytes : List Byte) : (s.setWire bytes).outLatch = s.outLatch := rfl
@[simp] theorem outLatch_issue (s : State) (shown : Bool) (bytes : List Byte) : (s.issue shown bytes).outLatch = s.outLatch := rfl
@[simp] theorem outLatch_pass (s : State) : s.pass.outLatch = s.outLatch := rfl
@[simp] theorem readBl_setQ (s : State) (ops : List MicroOp) : (s.setQ ops).readBl = s.readBl := rfl
@[simp] theorem readBl_setWire (s : State) (bytes : List Byte) : (s.setWire bytes).readBl = s.readBl := rfl
@[simp] theorem readBl_issue (s : State) (shown : Bool) (bytes : List Byte) : (s.issue shown bytes).readBl = s.readBl := rfl
@[simp] theorem readBl_pass (s : State) : s.pass.readBl = s.readBl := rfl
@[simp] theorem readBl_setOffers (s : State) (rs : List Request) : (s.setOffers rs).readBl = s.readBl := rfl
@[simp] theorem readBl_accept (s : State) (i : Instr) (ops : List MicroOp) : (s.accept i ops).readBl = s.readBl := rfl
@[simp] theorem nextOutcome_setQ (s : State) (ops : List MicroOp) : (s.setQ ops).nextOutcome = s.nextOutcome := rfl
@[simp] theorem nextOutcome_pass (s : State) : s.pass.nextOutcome = s.nextOutcome := rfl
@[simp] theorem backlightLine_setQ (s : State) (ops : List MicroOp) : (s.setQ ops).backlightLine = s.backlightLine := rfl
@[simp] theorem backlightLine_setbl (s : State) (m : Byte) : (s.setbl m).backlightLine = s.backlightLine := rfl
@[simp] theorem backlightLine_pass (s : State) : s.pass.backlightLine = s.backlightLine := rfl
@[simp] theorem backlightLit_setQ (s : State) (ops : List MicroOp) : (s.setQ ops).backlightLit = s.backlightLit := rfl
@[simp] theorem backlightLit_setbl (s : State) (m : Byte) : (s.setbl m).backlightLit = s.backlightLit := rfl

/-- A step's own time changes nothing but the clock and the model's counter of steps (spec R255). -/
theorem pass_eq (s : State) : ∃ time, s.pass = { s with now := time, steps := s.steps + 1 } ∧ s.now ≤ time :=
  ⟨_, rfl, by omega⟩

theorem now_le_pass (s : State) : s.now ≤ s.pass.now := by simp

/-! ### The fields of an expander byte -/

@[simp] theorem lineE_expanderByte (d : BitVec 4) (blk e rs : Bool) : lineE (expanderByte d blk e rs) = e := by
  cases blk <;> cases e <;> cases rs <;> revert d <;> decide

@[simp] theorem lineRw_expanderByte (d : BitVec 4) (blk e rs : Bool) : lineRw (expanderByte d blk e rs) = false := by
  cases blk <;> cases e <;> cases rs <;> revert d <;> decide

@[simp] theorem lineRs_expanderByte (d : BitVec 4) (blk e rs : Bool) : lineRs (expanderByte d blk e rs) = rs := by
  cases blk <;> cases e <;> cases rs <;> revert d <;> decide

@[simp] theorem lineBlk_expanderByte (d : BitVec 4) (blk e rs : Bool) : lineBlk (expanderByte d blk e rs) = blk := by
  cases blk <;> cases e <;> cases rs <;> revert d <;> decide

@[simp] theorem lineD_expanderByte (d : BitVec 4) (blk e rs : Bool) : lineD (expanderByte d blk e rs) = d := by
  cases blk <;> cases e <;> cases rs <;> revert d <;> decide

/-- A frame is made of four expander bytes: each nibble with enable high, then with enable low (spec R61). -/
theorem frame_eq_expanderBytes (rs : Bool) (v : Byte) (s : State) :
    frame rs v s.readBl =
      [expanderByte (v.extractLsb' 4 4) (lineBlk s.bl) true rs, expanderByte (v.extractLsb' 4 4) (lineBlk s.bl) false rs,
       expanderByte (v.extractLsb' 0 4) (lineBlk s.bl) true rs, expanderByte (v.extractLsb' 0 4) (lineBlk s.bl) false rs] := by
  have h : s.readBl = blMask (lineBlk s.bl) := by
    simp only [State.readBl, blBits, lineBlk]
    generalize s.bl = b
    revert b; decide
  rw [h]
  generalize lineBlk s.bl = blk
  cases rs <;> cases blk <;> revert v <;> decide

/-- A byte with `RW` low is an expander byte of its own fields. -/
theorem expanderByte_of_lines {b : Byte} (h : lineRw b = false) :
    expanderByte (lineD b) (lineBlk b) (lineE b) (lineRs b) = b := by
  revert b; decide

end Sys2Proof.Machine
end

