-- ==== Sys2Proof/Laws/PerInstr.lean ====
section
/-! SUPPORT. The statements made per instruction: the encoding of every instruction carries its row of
spec/opcode_table.json. -/

namespace Sys2Proof.Laws.TableRow

/-- The mask and match of an instruction's row in spec/opcode_table.json. -/
def row : Instr → Nat × Nat
  | .init .. => (0xFE00FF80, 0x00000000)
  | .cmd _ => (0xFFFFFF00, 0x10000000)
  | .char _ => (0xFFFFFF00, 0x20000000)
  | .cursor .. => (0xFFFF0000, 0x30000000)
  | .write .. => (0xFFFF0000, 0x40000000)
  | .clear => (0xFFFFFFFF, 0x50000000)
  | .backlight _ => (0xFEFFFFFF, 0x60000000)
  | .scrollL .. => (0xFFFF00FF, 0x70000000)
  | .scrollR .. => (0xFFFF00FF, 0x80000000)
  | .scrollV .. => (0xFFFFFFFF, 0x90000000)
  | .cgram .. => (0xFFFFFF00, 0xA0000000)
  | .cmdEh .. => (0x07, 0x04)
  | .cmdEl .. => (0x07, 0x00)
  | .datEh .. => (0x07, 0x05)
  | .datEl .. => (0x07, 0x01)

/-- The bits that the row fixes are as the row says: of `W0` for a request, of the byte for an expander byte. -/
def Statement (i : Instr) : Prop :=
  match encode i with
  | .request r => r.w0 &&& BitVec.ofNat 32 (row i).1 = BitVec.ofNat 32 (row i).2
  | .byte b => b &&& BitVec.ofNat 8 (row i).1 = BitVec.ofNat 8 (row i).2

/-- The mask of the rows that take `C` leaves the rest of the header. -/
theorem header_and_c (op : BitVec 4) (c : Byte) : header op false 0 0 c &&& 0xFFFFFF00#32 = header op false 0 0 0 := by
  apply BitVec.eq_of_getLsbD_eq
  intro i hi
  simp only [header, BitVec.getLsbD_and, BitVec.getLsbD_append]
  interval_cases i <;> simp

/-- The mask of the rows that take `B` and `C` leaves the rest of the header. -/
theorem header_and_bc (op : BitVec 4) (b c : Byte) : header op false 0 b c &&& 0xFFFF0000#32 = header op false 0 0 0 := by
  apply BitVec.eq_of_getLsbD_eq
  intro i hi
  simp only [header, BitVec.getLsbD_and, BitVec.getLsbD_append]
  interval_cases i <;> simp

/-- The mask of the rows that take `B` leaves the rest of the header. -/
theorem header_and_b (op : BitVec 4) (b : Byte) : header op false 0 b 0 &&& 0xFFFF00FF#32 = header op false 0 0 0 := by
  apply BitVec.eq_of_getLsbD_eq
  intro i hi
  simp only [header, BitVec.getLsbD_and, BitVec.getLsbD_append]
  interval_cases i <;> simp

theorem init (a : Addr) (f : Bool) (w : Byte) : Statement (.init a f w) := by
  show header 0x0 f w 0 (0#1 ++ a) &&& 0xFE00FF80#32 = 0x00000000#32
  apply BitVec.eq_of_getLsbD_eq
  intro i hi
  simp only [header, BitVec.getLsbD_and, BitVec.getLsbD_append]
  interval_cases i <;> simp

theorem cmd (v : Byte) : Statement (.cmd v) := (header_and_c 0x1 v).trans (by simp only [row]; decide)

theorem char (v : Byte) : Statement (.char v) := (header_and_c 0x2 v).trans (by simp only [row]; decide)

theorem cursor (line pos : Byte) : Statement (.cursor line pos) := (header_and_bc 0x3 line pos).trans (by simp only [row]; decide)

theorem write (text : List Byte) (line pos : Byte) : Statement (.write text line pos) :=
  (header_and_bc 0x4 line pos).trans (by simp only [row]; decide)

theorem clear : Statement .clear := by
  simp only [Statement, encode, row]
  decide

theorem backlight (on : Bool) : Statement (.backlight on) := by
  simp only [Statement, encode, row]
  cases on <;> decide

theorem scrollL (text : List Byte) (line : Byte) (delay passes : Word) : Statement (.scrollL text line delay passes) :=
  (header_and_b 0x7 line).trans (by simp only [row]; decide)

theorem scrollR (text : List Byte) (line : Byte) (delay passes : Word) : Statement (.scrollR text line delay passes) :=
  (header_and_b 0x8 line).trans (by simp only [row]; decide)

theorem scrollV (text : List Byte) (delay passes : Word) : Statement (.scrollV text delay passes) := by
  simp only [Statement, encode, row]
  decide

theorem cgram (loc : Byte) (rows : List Byte) : Statement (.cgram loc rows) := (header_and_c 0xA loc).trans (by simp only [row]; decide)

theorem cmdEh (d : BitVec 4) (blk : Bool) : Statement (.cmdEh d blk) := by
  simp only [Statement, encode, row]
  revert d blk; decide

theorem cmdEl (d : BitVec 4) (blk : Bool) : Statement (.cmdEl d blk) := by
  simp only [Statement, encode, row]
  revert d blk; decide

theorem datEh (d : BitVec 4) (blk : Bool) : Statement (.datEh d blk) := by
  simp only [Statement, encode, row]
  revert d blk; decide

theorem datEl (d : BitVec 4) (blk : Bool) : Statement (.datEl d blk) := by
  simp only [Statement, encode, row]
  revert d blk; decide

end Sys2Proof.Laws.TableRow
end

