-- ==== Sys2Proof/Laws/Step.lean ====
section
/-! SUPPORT. What a step can do, said once, and the laws of runs. -/

namespace Sys2Proof.Machine

/-- Everything the acceptance of a request can do (spec R107): accept it, with the register writes of `init` before, or
refuse it. -/
theorem exec_request_cases {i : Instr} (hi : i.isRequest = true) (s : State) :
    (∃ ops, settledQueue ops = true ∧ (∀ a f w, i ≠ .init a f w) ∧ exec i s = .next (s.accept i ops)) ∨
    (∃ a f w, i = .init a f w ∧ w ≠ 0 ∧
      exec i s = .next ((((s.writeAddr a).writeWidth w).writeBl (pInitBl s.cfg f)).accept i (initBody f))) ∨
    (∃ resp, exec i s = .next (s.refuse resp) ∧
      ((resp = .eIllegal ∧ i.wellFormed = false) ∨
        ∃ loc rows, i = .cgram loc rows ∧ rows.length = 8 ∧ 7 < loc.toNat ∧ resp = .eRange loc)) := by
  have sendText_settled : ∀ (text : List Byte) ops, settledQueue (sendText text ++ ops) = settledQueue ops := by
    intro text ops
    induction text with
    | nil => rfl
    | cons c text ih => simpa [sendText, send, settledQueue] using ih
  have writeOps_settled : ∀ text line pos ops, settledQueue (writeOps text line pos ++ ops) = settledQueue ops := by
    intro text line pos ops
    simpa [writeOps, send, settledQueue, List.append_assoc] using sendText_settled text ops
  have passes_settled : ∀ r body, (∀ ops, settledQueue (body ++ ops) = settledQueue ops) →
      settledQueue (passes r body) = true := by
    intro r body h
    induction r with
    | zero => rfl
    | succ r ih => simpa [passes, List.replicate_succ, h] using ih
  have window_settled : ∀ ws line d ops, settledQueue (windowPass ws line d ++ ops) = settledQueue ops := by
    intro ws line d ops
    induction ws with
    | nil => rfl
    | cons w ws ih =>
      have : windowPass (w :: ws) line d ++ ops = writeOps w line 0 ++ (.wait d :: (windowPass ws line d ++ ops)) := by
        simp [windowPass, List.append_assoc]
      rw [this, writeOps_settled]
      simpa [settledQueue] using ih
  have pairs_settled : ∀ (ps : List (List Byte × List Byte)) d ops,
      settledQueue ((ps.flatMap fun p => writeOps p.1 1 0 ++ writeOps p.2 2 0 ++ [.wait d]) ++ ops) =
        settledQueue ops := by
    intro ps d ops
    induction ps with
    | nil => rfl
    | cons p ps ih =>
      simp only [List.flatMap_cons, List.append_assoc, writeOps_settled]
      simpa [settledQueue, List.append_assoc] using ih
  cases i with
  | init a f w =>
    by_cases hw : w = 0
    · exact .inr (.inr ⟨.eIllegal, by simp [exec, execInit, hw], .inl ⟨rfl, by simp [Instr.wellFormed, hw]⟩⟩)
    · exact .inr (.inl ⟨a, f, w, rfl, hw, by simp only [exec, execInit, if_neg hw]⟩)
  | cmd v => exact .inl ⟨_, by simp [send, settledQueue], by simp, rfl⟩
  | char v => exact .inl ⟨_, by simp [send, settledQueue], by simp, rfl⟩
  | cursor line pos => exact .inl ⟨_, by simp [send, settledQueue], by simp, rfl⟩
  | write text line pos =>
    exact .inl ⟨_, by simpa [settledQueue] using writeOps_settled text line pos [], by simp, rfl⟩
  | clear => exact .inl ⟨_, by decide, by simp, rfl⟩
  | backlight on => exact .inl ⟨_, by cases on <;> decide, by simp, rfl⟩
  | scrollL text line delay reps =>
    exact .inl ⟨_, passes_settled _ _ fun ops => window_settled _ _ _ ops, by simp, rfl⟩
  | scrollR text line delay reps =>
    exact .inl ⟨_, passes_settled _ _ fun ops => window_settled _ _ _ ops, by simp, rfl⟩
  | scrollV text delay reps =>
    exact .inl ⟨_, passes_settled _ _ fun ops => pairs_settled _ _ ops, by simp, rfl⟩
  | cgram loc rows =>
    by_cases hr : rows.length = 8
    · by_cases hl : 7 < loc.toNat
      · exact .inr (.inr ⟨.eRange loc, by simp [exec, execCgram, hr, hl], .inr ⟨loc, rows, rfl, hr, hl, rfl⟩⟩)
      · refine .inl ⟨cgramOps loc rows, ?_, by simp, by simp [exec, execCgram, hr, hl]⟩
        simp only [cgramOps, send, List.cons_append, List.nil_append, settledQueue,
          sendText_settled]
        decide
    · exact .inr (.inr ⟨.eIllegal, by simp [exec, execCgram, hr], .inl ⟨rfl, by simp [Instr.wellFormed, hr]⟩⟩)
  | cmdEh d blk => simp [Instr.isRequest] at hi
  | cmdEl d blk => simp [Instr.isRequest] at hi
  | datEh d blk => simp [Instr.isRequest] at hi
  | datEl d blk => simp [Instr.isRequest] at hi

/-- An expander byte is one write of the expander port with the byte that encodes it (spec R41, R62). -/
theorem exec_byte {i : Instr} {b : Byte} (h : encode i = .byte b) (s : State) : exec i s = .next (s.expanderWrite b) := by
  cases i <;> simp_all [encode, exec, execCmdEh, execCmdEl, execDatEh, execDatEl]

/-- A byte decodes exactly when `RW` is low, and then to the instruction it encodes. -/
theorem decodeByte_cases (b : Byte) :
    (lineRw b = true ∧ decodeByte b = .error .readWriteHigh) ∨
    (lineRw b = false ∧ ∃ i, decodeByte b = .ok i ∧ i.isRequest = false ∧ encode i = .byte b) := by
  have hl := @expanderByte_of_lines b
  simp only [decodeByte, lineRw, lineRs, lineE, lineBlk, lineD] at *
  rcases h1 : b.getLsbD 1 with _ | _
  · right
    have hb := hl h1
    rcases h0 : b.getLsbD 0 with _ | _ <;> rcases h2 : b.getLsbD 2 with _ | _ <;>
      rw [h0, h2] at hb <;> exact ⟨rfl, _, rfl, rfl, congrArg Encoded.byte hb⟩
  · left
    exact ⟨rfl, rfl⟩

/-- A decoded request is a request. -/
theorem isRequest_of_decodeRequest {r : Request} {i : Instr} (h : decodeRequest r = .ok i) : i.isRequest = true := by
  have checked_ok : ∀ {z p j}, r.checked z p j = .ok i → j = i := by
    intro z p j h
    simp only [Request.checked] at h
    split at h
    · simp at h
    · split at h
      · simp at h
      · split at h
        · simp at h
        · simpa using h
  unfold decodeRequest at h
  split at h <;> first | (have := checked_ok h; subst this; rfl) | simp at h

/-! ### The step, case by case -/

theorem step_wire {s : State} {b : Byte} {rest : List Byte} (h : s.wire = b :: rest) :
    step s = expanderStep b (s.pass.setWire rest) := by
  simp [step, h]

theorem step_queue_cons {s : State} {u : MicroOp} {ops : List MicroOp} (hw : s.wire = []) (hp : s.phase ≠ .idle)
    (hq : s.q = u :: ops) : step s = .next ((s.pass.setQ ops).runMicro u) := by
  rcases h : s.phase with _ | _ | _ <;> simp_all [step, sequencerStep, queueStep]

theorem step_queue_nil {s : State} (hw : s.wire = []) (hp : s.phase ≠ .idle) (hq : s.q = []) :
    step s = .next (s.pass.done .ok) := by
  rcases h : s.phase with _ | _ | _ <;> simp_all [step, sequencerStep, queueStep]

theorem step_idle_nil {s : State} (hw : s.wire = []) (hp : s.phase = .idle) (ho : s.offers = []) :
    step s = .next s.pass := by
  simp [step, sequencerStep, idleStep, hw, hp, ho]

theorem step_idle_cons {s : State} {r : Request} {rest : List Request} (hw : s.wire = []) (hp : s.phase = .idle)
    (ho : s.offers = r :: rest) : step s = takeRequest r (s.pass.setOffers rest) := by
  simp [step, sequencerStep, idleStep, hw, hp, ho]

/-- A list is empty or has a head. -/
theorem nil_or_cons {α : Type} (l : List α) : l = [] ∨ ∃ x rest, l = x :: rest := by
  cases l <;> simp

/-- Everything a step that answers a next state can do. -/
theorem step_cases {s t : State} (h : step s = .next t) :
    (∃ b rest, s.wire = b :: rest ∧ lineRw b = false ∧ t = (s.pass.setWire rest).expanderWrite b) ∨
    (s.wire = [] ∧ s.phase ≠ .idle ∧ ∃ u ops, s.q = u :: ops ∧ t = (s.pass.setQ ops).runMicro u) ∨
    (s.wire = [] ∧ s.phase ≠ .idle ∧ s.q = [] ∧ t = s.pass.done .ok) ∨
    (s.wire = [] ∧ s.phase = .idle ∧ s.offers = [] ∧ t = s.pass) ∨
    (s.wire = [] ∧ s.phase = .idle ∧ ∃ r rest, s.offers = r :: rest ∧
      ((∃ e, decodeRequest r = .error e) ∧ t = (s.pass.setOffers rest).refuse .eIllegal ∨
        ∃ i, decodeRequest r = .ok i ∧ exec i (s.pass.setOffers rest) = .next t)) := by
  rcases nil_or_cons s.wire with hw | ⟨b, rest, hw⟩
  · by_cases hp : s.phase = .idle
    · rcases nil_or_cons s.offers with ho | ⟨r, rest, ho⟩
      · rw [step_idle_nil hw hp ho] at h
        exact .inr (.inr (.inr (.inl ⟨hw, hp, ho, by simpa using h.symm⟩)))
      · rw [step_idle_cons hw hp ho, takeRequest] at h
        rcases hd : decodeRequest r with e | i <;> simp only [hd] at h
        · exact .inr (.inr (.inr (.inr ⟨hw, hp, r, rest, ho, .inl ⟨⟨e, hd⟩, by simpa using h.symm⟩⟩)))
        · exact .inr (.inr (.inr (.inr ⟨hw, hp, r, rest, ho, .inr ⟨i, hd, h⟩⟩)))
    · rcases nil_or_cons s.q with hq | ⟨u, ops, hq⟩
      · rw [step_queue_nil hw hp hq] at h
        exact .inr (.inr (.inl ⟨hw, hp, hq, by simpa using h.symm⟩))
      · rw [step_queue_cons hw hp hq] at h
        exact .inr (.inl ⟨hw, hp, u, ops, hq, by simpa using h.symm⟩)
  · rw [step_wire hw, expanderStep] at h
    rcases decodeByte_cases b with ⟨_, hd⟩ | ⟨hb, i, hd, _, he⟩
    · simp [hd] at h
    · simp only [hd, exec_byte he] at h
      exact .inl ⟨b, rest, hw, hb, by simpa using h.symm⟩

/-! ### Runs -/

@[simp] theorem runs_zero (s : State) : runs 0 s = .next s := rfl

theorem runs_succ {n : Nat} {s t : State} (h : step s = .next t) : runs (n + 1) s = runs n t := by
  have h' : Sys2Proof.core.step s = .next t := h
  simp only [runs, Host.Core.run, h']
  rfl

/-- A run of at least one step that answers a next state begins with a step that does. -/
theorem step_of_runs_succ {n : Nat} {s t : State} (h : runs (n + 1) s = .next t) :
    ∃ s', step s = .next s' ∧ runs n s' = .next t := by
  rcases hs : step s with s' | f | r
  · exact ⟨s', rfl, by rwa [runs_succ hs] at h⟩
  · have h' : Sys2Proof.core.step s = .fault f := hs
    simp [runs, Host.Core.run, h'] at h
  · have h' : Sys2Proof.core.step s = .refused r := hs
    simp [runs, Host.Core.run, h'] at h

/-- Runs compose. -/
theorem runs_add {n m : Nat} {s t : State} (h : runs n s = .next t) : runs (n + m) s = runs m t := by
  induction n generalizing s with
  | zero => simp only [runs_zero, Host.Outcome.next.injEq] at h; subst h; simp
  | succ n ih =>
    obtain ⟨s', hs, hr⟩ := step_of_runs_succ h
    rw [Nat.succ_add, runs_succ hs, ih hr]

/-- What the expander does with the bytes on the wire, one after the other (spec R49). -/
def deliver : List Byte → State → State
  | [], s => s
  | b :: rest, s => deliver rest ((s.pass.setWire rest).expanderWrite b)

/-- The bytes on the wire are delivered, one step each, before anything else happens. -/
theorem runs_deliver {bytes : List Byte} {s : State} (hw : s.wire = bytes) (hb : ∀ b ∈ bytes, lineRw b = false) :
    runs bytes.length s = .next (deliver bytes s) := by
  induction bytes generalizing s with
  | nil => rfl
  | cons b rest ih =>
    have h : step s = .next ((s.pass.setWire rest).expanderWrite b) := by
      rw [step_wire hw, expanderStep]
      rcases decodeByte_cases b with ⟨h1, _⟩ | ⟨_, i, hd, _, he⟩
      · simp [hb b List.mem_cons_self] at h1
      · simp only [hd]; exact exec_byte he _
    rw [List.length_cons, runs_succ h]
    exact ih rfl fun b' hb' => hb b' (List.mem_cons_of_mem _ hb')

end Sys2Proof.Machine
end

