-- ==== Sys2Proof/Tests/Slice0.lean ====
section
/-! SUPPORT. Tests: expected values come from the spec's own tables and examples (95_test_vectors.md) or from a word written out
from an encoding table; then one witness for the hypotheses of every statement. -/

namespace Sys2Proof.Tests

open Sys2Proof.Machine

/-! ### Helpers -/

/-- The state after a successful default reset (95_test_vectors.md, "the start state"), the bus outcomes and the requests
offered as given. -/
def ready (outcomes : List BusOutcome) (offers : List Request) : State :=
  { State.reset with phase := .idle, q := [], busIn := outcomes, offers := offers }

/-- A block running a request, from the start state: `q` is left, the bus outcomes are given. -/
def running (q : List MicroOp) (outcomes : List BusOutcome) : State :=
  { ready outcomes [] with phase := .busy, cur := some .clear, q := q }

/-- The raw request that encodes an instruction. -/
def requestOf (i : Instr) : Request :=
  match encode i with
  | .request r => r
  | .byte _ => { w0 := 0 }

/-- `n` successes. -/
def oks (n : Nat) : List BusOutcome := List.replicate n .ok

/-- The state that an outcome holds, or the state itself where it stops. -/
def stateOf (s : State) : Host.Outcome State Fault Refusal → State
  | .next t => t
  | .fault _ => s
  | .refused _ => s

/-- The state after one step. -/
def next (s : State) : State := stateOf s (step s)

/-- The state after one instruction. -/
def after (i : Instr) (s : State) : State := stateOf s (exec i s)

/-- "HI" (95_test_vectors.md V4). -/
def hi : List Byte := [0x48#8, 0x49#8]

/-- "ABCDEFGHIJKLMNOPQR" (95_test_vectors.md V7). -/
def eighteen : List Byte := (List.range 18).map fun i => BitVec.ofNat 8 (0x41 + i)

/-- Sixteen or fewer spaces. -/
def sp (n : Nat) : List Byte := List.replicate n 0x20#8

/-- Eight glyph rows. -/
def rows : List Byte := List.replicate 8 0x1F#8

/-! ### Well-formedness: each check refuses an ill-formed term -/

theorem test_illformed_init_width : (Instr.init 0x27#7 true 0#8).wellFormed = false := by decide
theorem test_illformed_cgram_short : (Instr.cgram 0#8 (rows.take 7)).wellFormed = false := by decide
theorem test_illformed_cgram_long : (Instr.cgram 0#8 (0#8 :: rows)).wellFormed = false := by decide
theorem test_wellformed_range_error : (Instr.cgram 8#8 rows).wf := by decide

/-! ### Decoding: words written out from R68, R72 (V9, V4, V5, V6) and bytes from R60 -/

theorem test_decode_init :
    decode (.request { w0 := 0b0000_000_1_00010000_00000000_0_0100111#32 }) = .ok (.init 0x27#7 true 16#8) := by decide
theorem test_decode_init_3f : decode (.request { w0 := 0x0114003F#32 }) = .ok (.init 0x3F#7 true 20#8) := by decide
theorem test_decode_cmd :
    decode (.request { w0 := 0b0001_000_0_00000000_00000000_00000001#32 }) = .ok (.cmd 1#8) := by decide
theorem test_decode_char :
    decode (.request { w0 := 0b0010_000_0_00000000_00000000_01001000#32 }) = .ok (.char 0x48#8) := by decide
theorem test_decode_cursor :
    decode (.request { w0 := 0b0011_000_0_00000000_00000010_00000011#32 }) = .ok (.cursor 2#8 3#8) := by decide
theorem test_decode_write :
    decode (.request { w0 := 0b0100_000_0_00000000_00000010_00000011#32, payload := hi }) = .ok (.write hi 2#8 3#8) := by
  decide
theorem test_decode_clear :
    decode (.request { w0 := 0b0101_000_0_00000000_00000000_00000000#32 }) = .ok .clear := by decide
theorem test_decode_backlight :
    decode (.request { w0 := 0b0110_000_1_00000000_00000000_00000000#32 }) = .ok (.backlight true) ∧
    decode (.request { w0 := 0x60000000#32 }) = .ok (.backlight false) := by decide
theorem test_decode_scroll_l :
    decode (.request { w0 := 0b0111_000_0_00000000_00000001_00000000#32, w1 := 0#32, w2 := 1#32, payload := hi }) =
      .ok (.scrollL hi 1#8 0#32 1#32) := by decide
theorem test_decode_scroll_r :
    decode (.request { w0 := 0b1000_000_0_00000000_00000010_00000000#32, w1 := 5#32, w2 := 3#32, payload := hi }) =
      .ok (.scrollR hi 2#8 5#32 3#32) := by decide
theorem test_decode_scroll_v :
    decode (.request { w0 := 0b1001_000_0_00000000_00000000_00000000#32, w1 := 7#32, w2 := 2#32, payload := hi }) =
      .ok (.scrollV hi 7#32 2#32) := by decide
theorem test_decode_cgram :
    decode (.request { w0 := 0b1010_000_0_00000000_00000000_00000111#32, payload := rows }) = .ok (.cgram 7#8 rows) := by
  decide
theorem test_decode_cmd_eh : decode (.byte 0b0011_1_1_0_0#8) = .ok (.cmdEh 3#4 true) := by decide
theorem test_decode_cmd_el : decode (.byte 0b0011_1_0_0_0#8) = .ok (.cmdEl 3#4 true) := by decide
theorem test_decode_dat_eh : decode (.byte 0b0100_0_1_0_1#8) = .ok (.datEh 4#4 false) := by decide
theorem test_decode_dat_el : decode (.byte 0b0100_1_0_0_1#8) = .ok (.datEl 4#4 true) := by decide

/-- V9's refused rows, V5e and R73's payload rule; an expander byte with RW = 1 (R62). -/
theorem test_decode_refusals :
    decode (.request { w0 := 0xB0000000#32 }) = .error .reservedOpcode ∧
    decode (.request { w0 := 0xF0000000#32 }) = .error .reservedOpcode ∧
    decode (.request { w0 := 0x12000001#32 }) = .error .reservedBits ∧
    decode (.request { w0 := 0x11000001#32 }) = .error .unusedField ∧
    decode (.request { w0 := 0x10000101#32 }) = .error .unusedField ∧
    decode (.request { w0 := 0x50000001#32 }) = .error .unusedField ∧
    decode (.request { w0 := 0x700001FF#32 }) = .error .unusedField ∧
    decode (.request { w0 := 0x011000A7#32 }) = .error .unusedField ∧
    decode (.request { w0 := 0x10000001#32, payload := [0#8] }) = .error .payloadNotEmpty ∧
    decode (.byte 0b0011_1_1_1_0#8) = .error .readWriteHigh := by decide

/-- The table's numbering: a request's W0 in the low 32 bits, W1, W2 and the payload above; a byte in 8 bits. -/
theorem test_decode_table_words :
    decodeTableWord 32 0xA0000003 = some (.cgram 3#8 (List.replicate 8 0#8)) ∧
    decodeTableWord 96 0x000000020000000770000100 = some (.scrollL [] 1#8 7#32 2#32) ∧
    decodeTableWord 48 0x494840000203 = some (.write hi 2#8 3#8) ∧
    decodeTableWord 8 0x4D = some (.datEh 4#4 true) ∧
    decodeTableWord 32 0xB0000000 = none := by decide

/-! ### The framer and the address commands (V1, V2, V3, V8) -/

theorem test_frame_command :
    frame false 0x33#8 0x08#8 = [0x3C#8, 0x38#8, 0x3C#8, 0x38#8] ∧
    frame false 0x28#8 0x08#8 = [0x2C#8, 0x28#8, 0x8C#8, 0x88#8] ∧
    frame false 0xC3#8 0x00#8 = [0xC4#8, 0xC0#8, 0x34#8, 0x30#8] := by decide
theorem test_frame_data :
    frame true 0x48#8 0x08#8 = [0x4D#8, 0x49#8, 0x8D#8, 0x89#8] ∧
    frame true 0x1F#8 0x00#8 = [0x15#8, 0x11#8, 0xF5#8, 0xF1#8] := by decide
theorem test_dd_command :
    [(1#8, 15#8), (2, 3), (0, 5), (3, 0), (4, 0), (1, 0x80), (2, 0x40), (255, 255)].map (fun p => ddCommand p.1 p.2) =
      [0x8F#8, 0xC3, 0x45, 0x00, 0x40, 0x00, 0x00, 0xFF] := by decide
theorem test_cg_command : [0#8, 3, 7].map cgCommand = [0x40#8, 0x58, 0x78] := by decide
theorem test_response_words :
    responseWord (.eRange 8#8) = 0x00000801#32 ∧ responseWord (.eBus .timeout) = 0x00000202#32 := by decide

/-! ### Windows and chunks (V7, P6) -/

theorem test_left_windows : leftWindows {} 16 hi = [hi ++ sp 14, [0x49#8] ++ sp 15, sp 16] := by decide
theorem test_right_windows : rightWindows {} 16 hi = [sp 14 ++ hi, sp 15 ++ [0x48#8], sp 16] := by decide
theorem test_vertical_lines :
    verticalLines {} 16 eighteen = [sp 16, eighteen.take 16, [0x51#8, 0x52#8], sp 16] := by decide
theorem test_vertical_parameters :
    verticalLines { vblank := .empty, vpad := .spaces } 16 eighteen =
      [[], eighteen.take 16, [0x51#8, 0x52#8] ++ sp 14, []] ∧
    verticalLines { vblank := .empty } 16 [] = [[], []] := by decide
theorem test_transaction_counts :
    xferCount (scrollLOps {} 16#8 hi 1#8 0#32 1#32) = 51 ∧ xferCount (scrollROps {} 16#8 hi 1#8 0#32 2#32) = 102 ∧
    xferCount (scrollVOps {} 16#8 eighteen 0#32 1#32) = 74 ∧ scrollLOps {} 16#8 hi 1#8 1000#32 0#32 = [] := by decide

/-! ### One step of each instruction -/

theorem test_init_registers :
    (after (.init 0x3F#7 false 20#8) (ready [] [])).addr = 0x3F#7 ∧
    (after (.init 0x3F#7 false 20#8) (ready [] [])).bl = 0x00#8 ∧
    (after (.init 0x3F#7 false 20#8) (ready [] [])).width = 20#8 := by decide
theorem test_init_width_zero : after (.init 0x27#7 true 0#8) (ready [] []) = (ready [] []).refuse .eIllegal := by decide
theorem test_cmd_queue : (after (.cmd 0x28#8) (ready [] [])).q = [.xfer false 0x28#8, .wait 2000] := by decide
theorem test_char_queue : (after (.char 0x48#8) (ready [] [])).q = [.xfer true 0x48#8, .wait 2000] := by decide
theorem test_cursor_queue : (after (.cursor 2#8 3#8) (ready [] [])).q = [.xfer false 0xC3#8, .wait 2000] := by decide
theorem test_write_queue : (after (.write hi 2#8 3#8) (ready [] [])).q =
    [.xfer false 0xC3#8, .wait 2000, .xfer true 0x48#8, .wait 2000, .xfer true 0x49#8, .wait 2000] := by decide
theorem test_clear_queue : (after .clear (ready [] [])).q = [.xfer false 1#8, .wait 2000, .wait 2000] := by decide
theorem test_backlight_queue :
    (after (.backlight false) (ready [] [])).q = [.setbl 0#8, .xfer false 0#8, .wait 2000] := by decide
theorem test_scroll_l_queue : (after (.scrollL [] 2#8 9#32 1#32) { ready [] [] with width := 1#8 }).q =
    [.xfer false 0xC0#8, .wait 2000, .xfer true 0x20#8, .wait 2000, .wait 9] := by decide
theorem test_scroll_r_queue : (after (.scrollR [0x41#8] 1#8 9#32 1#32) { ready [] [] with width := 1#8 }).q =
    [.xfer false 0x80#8, .wait 2000, .xfer true 0x41#8, .wait 2000, .wait 9,
     .xfer false 0x80#8, .wait 2000, .xfer true 0x20#8, .wait 2000, .wait 9] := by decide
theorem test_scroll_v_queue : (after (.scrollV [] 9#32 1#32) { ready [] [] with width := 1#8 }).q =
    [.xfer false 0x80#8, .wait 2000, .xfer true 0x20#8, .wait 2000,
     .xfer false 0xC0#8, .wait 2000, .xfer true 0x20#8, .wait 2000, .wait 9] := by decide
theorem test_cgram_range : after (.cgram 8#8 rows) (ready [] []) = (ready [] []).refuse (.eRange 8#8) := by decide
theorem test_cgram_priority :
    after (.cgram 8#8 (rows.take 7)) (ready [] []) = (ready [] []).refuse .eIllegal := by decide
/-- R104: b0 raises E, b1 lowers it and hands the nibble over. -/
theorem test_command_pulse :
    (after (.cmdEl 3#4 true) (after (.cmdEh 3#4 true) (ready [] []))).pulses = [⟨false, 3#4⟩] ∧
    (after (.cmdEl 3#4 true) (after (.cmdEh 3#4 true) (ready [] []))).mem = [(0x27, 0x38#8)] := by decide
theorem test_data_pulse :
    (after (.datEl 4#4 true) (after (.datEh 4#4 true) (ready [] []))).pulses = [⟨true, 4#4⟩] ∧
    (after (.datEl 5#4 true) (after (.datEl 4#4 true) (after (.datEh 4#4 true) (ready [] [])))).pulses =
      [⟨true, 4#4⟩] := by decide

/-! ### The sequencer -/

/-- P1: the first transaction after reset. -/
theorem test_first_frame_after_reset :
    (next { State.reset with busIn := oks 1 }).trace = [.x 0x27#7 [0x3C#8, 0x38#8, 0x3C#8, 0x38#8] .ok] := by decide
/-- V6, last row: the transaction of `backlight 0` fails; `BL` is kept. -/
theorem test_abort :
    let s := { ready [.err .nack] [] with bl := 0#8, phase := .busy, cur := some (.backlight false), q := send false 0#8 }
    (next s).trace = [.x 0x27#7 [0x04#8, 0x00#8, 0x04#8, 0x00#8] (.err .nack), .r (.eBus .nack)] ∧
    (next s).bl = 0#8 ∧ (next s).phase = .idle ∧ (next s).q = [] := by decide
/-- R126: the visible backlight follows the expander's line or, where the wiring does not expose it, does not. -/
theorem test_visible_backlight :
    let s := { ready [] [] with mem := [(0x27, 0x00#8)] }
    s.backlightLit = false ∧ { s with cfg := { wiring := .fixed true } }.backlightLit = true ∧
    { s with mem := [(0x27, 0x08#8)] }.backlightLit = true := by decide
/-- R252: while three bytes of the frame are still on the wire the latch has the new backlight bit and the line shows the old
value; when the last has gone it shows the new one. -/
theorem test_backlight_line_held :
    let s := { running (send false 0#8) [.ok] with bl := 0x00#8, mem := [(0x27, 0x08#8)] }
    (next (next s)).mem = [(0x27, 0x04#8)] ∧ (next (next s)).backlightLine = true ∧
    (next (next (next (next (next s))))).backlightLine = false := by decide
/-- R217: a further kind is passed on unchanged. -/
theorem test_further_kind :
    (next { State.reset with q := send false 0#8, busIn := [.err (.other 300)] }).trace =
      [.x 0x27#7 [0x0C#8, 0x08#8, 0x0C#8, 0x08#8] (.err (.other 300)), .r (.eBus (.other 300))] := by decide
/-- V9: a reserved opcode is answered `E_ILLEGAL`. -/
theorem test_reserved_opcode : (next (ready [] [{ w0 := 0xB0000000#32 }])).trace = [.r .eIllegal] := by decide

/-! ### The assembler (R75, R76) -/

theorem test_assemble_write :
    assemble (['w', 'r', 'i', 't', 'e', ' ', '"', 'H', 'I', '"', ',', ' '] ++ ['2', ',', ' ', '3', ' ', ';', ' ', 'x']) =
      some (.request { w0 := 0x40000203#32, payload := hi }) := by decide
theorem test_assemble_escape :
    assemble ("write ".toList ++ ['"', '\\', 'x', '5', 'C', '"']) =
      some (.request { w0 := 0x40000100#32, payload := [0x5C#8] }) := by decide
theorem test_assemble_init : assemble "init".toList = some (.request { w0 := 0x01100027#32 }) := by decide
theorem test_assemble_cgram :
    assemble "cgram 7, [0x1F, 0x1F, 0x1F, 0x1F, 31, 31, 31, 31]".toList =
      some (.request { w0 := 0xA0000007#32, payload := rows }) := by decide
theorem test_assemble_refuses : assemble "cmd 256".toList = none ∧ assemble "cmd".toList = none := by decide

/-! ### Witnesses: concrete states and operands that meet the hypotheses of each statement -/

/-- The start state with one request offered and `n` successes to come. -/
def offering (i : Instr) (n : Nat) : State := ready (oks n) [requestOf i]

/-- The start state with one request offered meets `State.offered`. -/
theorem offering_offered {i : Instr} {n : Nat} (h : encode i = .request (requestOf i)) : (offering i n).offered i n :=
  ⟨rfl, rfl, ⟨requestOf i, [], h, rfl⟩, [], by simp [offering, ready, oks]⟩

/-- After `CMD_EH` has gone by in a state of the sequencer's: the latch is known and E is high. -/
def raised : State := { running [] [] with mem := [(0x27, 0x3C#8)], wire := [0x38#8] }

theorem witness_ResetLoadsTheConstructionParameters :
    (State.reset.wire = [] ∧ State.reset.phase = .resetInit ∧ ∃ u ops, State.reset.q = u :: ops) ∧
    ((running [.wait 1] []).wire = [] ∧ (running [.wait 1] []).phase = .busy) ∧
    ((running [] []).wire = [] ∧ (running [] []).phase = .busy ∧ (running [] []).q = []) ∧ (1#8 : Byte) ≠ 0 :=
  ⟨⟨rfl, rfl, _, _, rfl⟩, ⟨rfl, rfl⟩, ⟨rfl, rfl, rfl⟩, by decide⟩

theorem witness_ResetMeetsTheInvariant : ({} : Config).wf ∧ ({ rstWidth := 1#8 } : Config).wf := by decide

theorem witness_SequencerStepsAsDescribed :
    illegalRequest { w0 := 0xB0000000#32 } = true ∧ illegalRequest { w0 := 0x01000027#32 } = true ∧
    (illegalRequest (requestOf (.cgram 8#8 rows)) = false ∧
      decodeRequest (requestOf (.cgram 8#8 rows)) = .ok (.cgram 8#8 rows) ∧ 7 < (8#8 : Byte).toNat) ∧
    (illegalRequest (requestOf (.cgram 7#8 rows)) = false ∧
      decodeRequest (requestOf (.cgram 7#8 rows)) = .ok (.cgram 7#8 rows) ∧ (7#8 : Byte).toNat ≤ 7) ∧
    (ready [] [{ w0 := 0xB0000000#32 }]).phase = .idle ∧ (ready [] [{ w0 := 0xB0000000#32 }]).wire = [] ∧
    (running [.wait 0] []).phase ≠ .idle ∧ (running [] []).q = [] := by decide

theorem witness_StepRunsTheDecodedInstruction :
    ((offering .clear 1).wire = [] ∧ (offering .clear 1).phase = .idle ∧
      (offering .clear 1).offers = [{ w0 := 0x50000000#32 }] ∧
      decodeRequest { w0 := 0x50000000#32 } = .ok .clear) ∧
    (raised.wire = 0x38#8 :: [] ∧ decodeByte 0x38#8 = .ok (.cmdEl 3#4 true)) := by decide

theorem witness_PlacedWordRunsNext :
    decodeTableWord 32 0x50000000 = some .clear ∧ decodeTableWord 8 0x3C = some (.cmdEh 3#4 true) := by decide

theorem witness_OffersWaitWhileTheBlockIsBusy :
    State.reset.phase ≠ .idle ∧ (∃ t, step { State.reset with offers := [{ w0 := 0x50000000#32 }] } = .next t) ∧
    raised.wire ≠ [] ∧ ∃ t, step raised = .next t :=
  ⟨by decide, ⟨_, rfl⟩, by decide, ⟨_, rfl⟩⟩

theorem witness_EndOfRunIsStable : (ready [] []).ended := ⟨rfl, rfl, rfl, rfl⟩

theorem witness_SetblWritesTheMaskAndNothingElse :
    (∃ t, exec (.backlight true) (ready [] []) = .next t ∧ .setbl 0x08#8 ∈ t.q ∧ .setbl 0x08#8 ∉ (ready [] []).q) ∧
    (ready [.err .timeout] []).nextOutcome = .err .timeout :=
  ⟨⟨_, rfl, by decide, by decide⟩, rfl⟩

theorem witness_FailedTransactionAbortsTheRequest :
    let s := running (send true 0x41#8) [.err .nack]
    s.wire = [] ∧ s.phase ≠ .idle ∧ s.q = .xfer true 0x41#8 :: [.wait 2000] ∧ s.nextOutcome = .err .nack := by decide

theorem witness_SuccessfulTransactionHandsOverOneByte :
    let s := running (send true 0x41#8) [.ok]
    s.wire = [] ∧ s.phase ≠ .idle ∧ s.q = .xfer true 0x41#8 :: [.wait 2000] ∧ s.nextOutcome = .ok := by decide

theorem witness_ExpanderStepsThroughTheFrame :
    let s := running (send false 0xC3#8) [.ok]
    s.wire = [] ∧ s.phase ≠ .idle ∧ s.q = .xfer false 0xC3#8 :: [.wait 2000] ∧ s.nextOutcome = .ok := by decide

theorem witness_FrameBytesAreTheTable : (0xF8#8 : Byte).getLsbD 2 = false := by decide

theorem witness_GlyphCommandIsTheSlotAddress : (7#8 : Byte).toNat ≤ 7 ∧ rows.length = 8 ∧ 7 < (8#8 : Byte).toNat := by
  decide

theorem witness_ResponseWordHasItsLayout : kindIndex (.other 0) = 0x03#8 ∧ kindIndex (.other 252) = 0xFF#8 := by decide

theorem witness_InitIsAcceptedUnlessTheWidthIsZero : (1#8 : Byte) ≠ 0 ∧ (255#8 : Byte) ≠ 0 := by decide

theorem witness_GlyphRequestIsAcceptedOrRefused :
    (rows.length = 8 ∧ (7#8 : Byte).toNat ≤ 7) ∧ 7 < (8#8 : Byte).toNat ∧ (rows.take 7).length ≠ 8 := by decide

theorem witness_RequestFrame :
    (Instr.clear.isRequest = true ∧ ∃ t, exec .clear (ready [] []) = .next t) ∧
    ((Instr.cgram 8#8 rows).isRequest = true ∧ ∃ t, exec (.cgram 8#8 rows) (ready [] []) = .next t) :=
  ⟨⟨rfl, _, rfl⟩, ⟨rfl, _, rfl⟩⟩

theorem witness_CompositeRequestsAreSequencesOfPrimitives : rows.length = 8 ∧ (7#8 : Byte).toNat ≤ 7 := by decide

theorem witness_EncodeOfDecodeIsTheEncoding :
    decodeByte 0x4D#8 = .ok (.datEh 4#4 true) ∧
    decodeRequest { w0 := 0x70000100#32, w1 := 3#32, w2 := 1#32, payload := hi } = .ok (.scrollL hi 1#8 3#32 1#32) ∧
    (Request.op { w0 := 0x70000100#32 }).toNat = 7 ∧ (Request.op { w0 := 0x90000000#32 }).toNat = 9 := by decide

theorem witness_IllegalRequestsAreExactlyTheRefusedOnes :
    let s := ready [] [{ w0 := 0xB0000000#32 }]
    let s' := ready [] [{ w0 := 0xA0000008#32, payload := rows }]
    (s.wire = [] ∧ s.phase = .idle ∧ s.offers = [{ w0 := 0xB0000000#32 }] ∧ illegalRequest { w0 := 0xB0000000#32 } = true) ∧
    (s'.wire = [] ∧ s'.phase = .idle ∧ illegalRequest { w0 := 0xA0000008#32, payload := rows } = false) ∧
    illegalRequest { w0 := 0x10000001#32 } = false := by decide

theorem witness_OnlyScrollsReadExtensionWords :
    ¬(7 ≤ (Request.op { w0 := 0x61000000#32 }).toNat ∧ (Request.op { w0 := 0x61000000#32 }).toNat ≤ 9) ∧
    ¬(7 ≤ (Request.op { w0 := 0xA0000000#32 }).toNat ∧ (Request.op { w0 := 0xA0000000#32 }).toNat ≤ 9) := by decide

theorem witness_SuccessfulQueueRunsToItsResponse :
    let s := running (cgramOps 7#8 rows) (oks 11)
    s.wire = [] ∧ s.phase ≠ .idle ∧ s.busIn = List.replicate (xferCount s.q) .ok ++ [.ok] ∧ 0 < xferCount s.q := by decide

/-- V10, first row. -/
theorem witness_FirstFailureEndsTheRequest :
    let s := running (writeOps [0x41#8, 0x42#8] 1#8 0#8) [.ok, .err .nack]
    s.wire = [] ∧ s.phase ≠ .idle ∧
    s.q = send false 0x80#8 ++ .xfer true 0x41#8 :: .wait 2000 :: send true 0x42#8 ∧
    admits s.cfg (.err .nack) = true ∧
    s.busIn = List.replicate (xferCount (send false 0x80#8)) .ok ++ .err .nack :: [] := by decide

theorem witness_EveryRequestEndsWithOneResponse : State.reset.wire = [] ∧ State.reset.phase ≠ .idle := by decide

theorem witness_PrimitiveRequestsSendOneFrame :
    (offering (.cmd 0x28#8) 1).offered (.cmd 0x28#8) 1 ∧ (offering (.char 0x48#8) 1).offered (.char 0x48#8) 1 :=
  ⟨offering_offered rfl, offering_offered rfl⟩

theorem witness_InitRunsTheFixedSequence :
    (20#8 : Byte) ≠ 0 ∧ (offering (.init 0x3F#7 true 20#8) 7).offered (.init 0x3F#7 true 20#8) 7 :=
  ⟨by decide, offering_offered rfl⟩

theorem witness_CursorAndWriteSendTheirBytesInOrder :
    (offering (.cursor 2#8 3#8) 1).offered (.cursor 2#8 3#8) 1 ∧
    (offering (.write hi 2#8 3#8) 3).offered (.write hi 2#8 3#8) (hi.length + 1) ∧
    (offering (.write [] 1#8 0#8) 1).offered (.write [] 1#8 0#8) (([] : List Byte).length + 1) :=
  ⟨offering_offered rfl, offering_offered rfl, offering_offered rfl⟩

theorem witness_ClearSendsOneCommandAndWaitsTwice : (offering .clear 1).offered .clear 1 := offering_offered rfl

theorem witness_BacklightReachesTheExpander :
    (offering (.backlight true) 1).offered (.backlight true) 1 ∧
    ((ready [.err .nack] [requestOf (.backlight false)]).offered (.backlight false) 0 ∧
      admits (ready [.err .nack] [requestOf (.backlight false)]).cfg (.err .nack) = true ∧
      (ready [.err .nack] [requestOf (.backlight false)]).busIn = .err .nack :: []) :=
  ⟨offering_offered rfl, ⟨rfl, rfl, ⟨_, [], rfl, rfl⟩, [.err .nack], rfl⟩, rfl, rfl⟩

theorem witness_BacklightLineChangesWithTheNextFrame :
    let s := running (backlightOps false) [.ok]
    s.wire = [] ∧ s.phase ≠ .idle ∧ s.q = .setbl 0x00#8 :: .xfer false 0x00#8 :: [.wait 2000] ∧ s.nextOutcome = .ok := by
  decide

theorem witness_HorizontalScrollsWriteTheirWindows :
    let l : Instr := .scrollL hi 1#8 0#32 1#32
    let r : Instr := .scrollR hi 1#8 0#32 1#32
    (offering l 51).offered l ((1#32).toNat * (hi.length + 1) * ((offering l 51).width.toNat + 1)) ∧
    (offering r 51).offered r ((1#32).toNat * (hi.length + 1) * ((offering r 51).width.toNat + 1)) :=
  ⟨offering_offered rfl, offering_offered rfl⟩

theorem witness_VerticalScrollWritesAdjacentPairs :
    let v : Instr := .scrollV eighteen 0#32 1#32
    74 = xferCount (scrollVOps (offering v 74).cfg (offering v 74).width eighteen 0#32 1#32) ∧ (offering v 74).offered v 74 :=
  ⟨by decide, offering_offered rfl⟩

theorem witness_GlyphIsProgrammedInTenTransactions :
    rows.length = 8 ∧ (7#8 : Byte).toNat ≤ 7 ∧ (offering (.cgram 7#8 rows) 10).offered (.cgram 7#8 rows) 10 :=
  ⟨rfl, by decide, offering_offered rfl⟩

theorem witness_LeftScrollWindowsSlideOffTheLeft :
    2 ≤ hi.length ∧ 15 < 16 ∧ hi ++ sp 14 ∈ leftWindows {} 16 hi := by decide

theorem witness_RightScrollMirrorsLeftScroll : sp 14 ++ hi ∈ rightWindows {} 16 hi := by decide

theorem witness_VerticalChunksPartitionTheText :
    0 < 16 ∧ eighteen.take 16 ∈ (chunks 16 eighteen).dropLast ∧ [0x51#8, 0x52#8] ∈ chunks 16 eighteen ∧
    1 < (eighteen.length + 16 - 1) / 16 := by decide

/-- The state after the first step from reset: a transaction on the wire. -/
def started : State := next { State.reset with busIn := oks 7 }

theorem witness_StepKeepsTheInvariant : (ready [] []).Inv ∧ ∃ t, step (ready [] [{ w0 := 0x50000000#32 }]) = .next t := by
  refine ⟨⟨.inr rfl, by decide, Memory.nil_wf, ⟨by decide, fun _ => ⟨rfl, rfl⟩⟩, rfl, ⟨by decide, by decide⟩, ?_, ⟨fun _ => rfl, fun _ => rfl⟩⟩,
    _, rfl⟩
  intro c hc
  exact absurd hc List.not_mem_nil

theorem witness_StepKeepsTheTraceSettled :
    State.reset.TraceInv ∧ (started.phase ≠ .idle ∧ ∃ ops, started.q = .wait tCmdUs :: ops) ∧ ∃ t, step State.reset = .next t :=
  ⟨⟨trivial, fun _ _ _ h => by cases h⟩, ⟨by decide, _, rfl⟩, _, rfl⟩

theorem witness_NothingStopsTheMachine : (ready [] []).Inv := witness_StepKeepsTheInvariant.1

theorem witness_OnlyAReadByteFaults :
    step { State.reset with wire := [0x3A#8] } = .fault .readWriteHigh ∧ lineRw 0x3A#8 = true := ⟨rfl, by decide⟩

theorem witness_OnlyKindsOfTheParameterAreReported :
    let s := { running (send false 0#8) [.err (.other 7)] with cfg := { kinds := .listed [7] } }
    (s.busIn = .err (.other 7) :: [] ∧ admits s.cfg (.err (.other 7)) = true) ∧
    admits s.cfg (.err (.other 8)) = false ∧ ∃ t, step s = .next t :=
  ⟨by decide, by decide, _, rfl⟩

theorem witness_OnlyInitAndSetblWriteRegisters :
    let s := offering (.init 0x3F#7 false 20#8) 0
    let s' := running [.setbl 0x00#8] []
    (step s = .next (next s) ∧ (next s).addr ≠ s.addr ∧ (next s).width ≠ s.width ∧ (next s).bl ≠ s.bl) ∧
    (step s' = .next (next s') ∧ (next s').bl ≠ s'.bl) :=
  ⟨⟨rfl, by decide, by decide, by decide⟩, rfl, by decide⟩

theorem witness_OnlyGlyphLocationsAreRangeChecked :
    let s := offering (.cgram 8#8 rows) 0
    (step s = .next (next s) ∧ (next s).trace = s.trace ++ [.r (.eRange 8#8)]) ∧
    (s.wire = [] ∧ s.phase = .idle ∧ s.offers = [requestOf (.cgram 8#8 rows)] ∧
      decodeRequest (requestOf (.cgram 8#8 rows)) = .ok (.cgram 8#8 rows) ∧ rows.length = 8 ∧ 7 < (8#8 : Byte).toNat) ∧
    ((Instr.cgram 7#8 rows).isRequest = true ∧ (Instr.cgram 7#8 rows).wf ∧ (7#8 : Byte).toNat ≤ 7) :=
  ⟨⟨rfl, by decide⟩, by decide, by decide⟩

theorem witness_HistoryOnlyGrows : ∃ t, step (offering .clear 1) = .next t := ⟨_, rfl⟩

theorem witness_TimeDecidesNothing : ∃ t, step raised = .next t := ⟨_, rfl⟩

theorem witness_OnlyTheLatchAtAddrChanges :
    (step raised = .next (next raised) ∧ (next raised).mem.read 0x27 ≠ raised.mem.read 0x27) ∧
    (let s := { running (send false 0#8) [.err .nack] with mem := [(0x27, 0x08#8)] }
     step s = .next (next s) ∧ (next s).mem.read 0x27 ≠ s.mem.read 0x27) :=
  ⟨⟨rfl, by decide⟩, rfl, by decide⟩

theorem witness_CanonicalMemoriesAreTheirReads :
    Memory.wf [] ∧ Memory.wf [(0, 8#8), (127, 0#8)] ∧ 0 < 128 ∧ 127 < 128 ∧ 0 ≠ 127 :=
  ⟨Memory.nil_wf, by decide, by decide, by decide, by decide⟩

end Sys2Proof.Tests
end

/-! ### A step only adds to the history (spec R6, R12, R213)

`Extends s t` is carried along every shared operation that is applied to `t`, and so along the cases of a step. -/

namespace Sys2Proof.Machine

/-- `t` may come after `s`: its records begin with those of `s`, its time is not less, its parameters are the same. -/
structure Extends (s t : State) : Prop where
  trace : s.trace <+: t.trace
  pulses : s.pulses <+: t.pulses
  now : s.now ≤ t.now
  cfg : t.cfg = s.cfg

namespace Extends

variable {s t u : State}

theorem refl (s : State) : Extends s s := ⟨List.prefix_rfl, List.prefix_rfl, le_rfl, rfl⟩

/-- An operation that touches neither the records nor the time nor the parameters. -/
theorem of_eq (h : Extends s t) (htrace : u.trace = t.trace) (hpulses : u.pulses = t.pulses) (hnow : u.now = t.now)
    (hcfg : u.cfg = t.cfg) : Extends s u :=
  ⟨htrace ▸ h.trace, hpulses ▸ h.pulses, hnow ▸ h.now, hcfg.trans h.cfg⟩

theorem setQ (h : Extends s t) (ops : List MicroOp) : Extends s (t.setQ ops) := h.of_eq rfl rfl rfl rfl

theorem setWire (h : Extends s t) (bytes : List Byte) : Extends s (t.setWire bytes) := h.of_eq rfl rfl rfl rfl

theorem setOffers (h : Extends s t) (rs : List Request) : Extends s (t.setOffers rs) := h.of_eq rfl rfl rfl rfl

theorem writeAddr (h : Extends s t) (a : Addr) : Extends s (t.writeAddr a) := h.of_eq rfl rfl rfl rfl

theorem writeWidth (h : Extends s t) (w : Byte) : Extends s (t.writeWidth w) := h.of_eq rfl rfl rfl rfl

theorem writeBl (h : Extends s t) (m : Byte) : Extends s (t.writeBl m) := h.of_eq rfl rfl rfl rfl

theorem accept (h : Extends s t) (i : Instr) (ops : List MicroOp) : Extends s (t.accept i ops) :=
  h.of_eq rfl rfl rfl rfl

theorem issue (h : Extends s t) (shown : Bool) (bytes : List Byte) : Extends s (t.issue shown bytes) :=
  h.of_eq rfl rfl rfl rfl

theorem pass (h : Extends s t) : Extends s t.pass :=
  ⟨h.trace, h.pulses, h.now.trans (now_le_pass t), h.cfg⟩

theorem emit (h : Extends s t) (e : Event) : Extends s (t.emit e) :=
  ⟨h.trace.trans (List.prefix_append _ _), h.pulses, h.now, h.cfg⟩

theorem refuse (h : Extends s t) (resp : Response) : Extends s (t.refuse resp) := h.emit (.r resp)

theorem done (h : Extends s t) (resp : Response) : Extends s (t.done resp) :=
  (h.emit (.r resp)).of_eq rfl rfl rfl rfl

theorem raise (h : Extends s t) (resp : Response) : Extends s (t.raise resp) := (h.setQ []).done resp

theorem loseExpander (h : Extends s t) : Extends s t.loseExpander :=
  ⟨h.trace, h.pulses.trans (List.prefix_append _ _), h.now, h.cfg⟩

theorem expanderWrite (h : Extends s t) (b : Byte) : Extends s (t.expanderWrite b) := by
  refine ⟨h.trace, ?_, h.now, h.cfg⟩
  rw [State.expanderWrite_pulses]
  split
  · exact h.pulses.trans (List.prefix_append _ _)
  · exact h.pulses

theorem wait (h : Extends s t) (d : Nat) : Extends s (t.wait d) :=
  ⟨(h.emit (.w d)).trace, h.pulses, h.now.trans (le_of_add_le_left (wait_now_ge t d)), h.cfg⟩

theorem transact (h : Extends s t) (rs : Bool) (v : Byte) : Extends s (t.transact rs v) :=
  ⟨(h.emit (.x t.addr (frame rs v t.readBl) t.nextOutcome)).trace, h.pulses, h.now.trans (Nat.le_add_right _ _), h.cfg⟩

theorem xfer (h : Extends s t) (rs : Bool) (v : Byte) : Extends s (t.xfer rs v) := by
  obtain ⟨_, hx⟩ | ⟨k, _, hx⟩ := xfer_cases t rs v
  · exact hx ▸ (h.transact rs v).issue _ _
  · exact hx ▸ (h.transact rs v).loseExpander.raise (.eBus k)

theorem runMicro (h : Extends s t) : ∀ op : MicroOp, Extends s (t.runMicro op)
  | .setbl m => h.writeBl m
  | .xfer rs v => h.xfer rs v
  | .wait d => h.wait d

/-- The meaning of a request, accepted or refused, adds to the history. -/
theorem exec_request {i : Instr} (h : Extends s t) (hi : i.isRequest = true) (hu : exec i t = .next u) :
    Extends s u := by
  obtain ⟨ops, _, _, he⟩ | ⟨a, f, w, _, _, he⟩ | ⟨resp, he, _⟩ := exec_request_cases hi t <;>
    obtain rfl := Host.Outcome.next.inj (he.symm.trans hu)
  · exact h.accept i ops
  · exact (((h.writeAddr a).writeWidth w).writeBl _).accept i (initBody f)
  · exact h.refuse resp

end Extends

/-- Whatever a step does, it does after the time of the step has passed, by operations that add to the history. -/
theorem step_extends {s t : State} (h : step s = .next t) : Extends s t := by
  have hpass : Extends s s.pass := (Extends.refl s).pass
  obtain ⟨b, rest, _, _, rfl⟩ | ⟨_, _, u, ops, _, rfl⟩ | ⟨_, _, _, rfl⟩ | ⟨_, _, _, rfl⟩ |
    ⟨_, _, r, rest, _, ⟨_, rfl⟩ | ⟨i, hd, hexec⟩⟩ := step_cases h
  · exact (hpass.setWire rest).expanderWrite b
  · exact (hpass.setQ ops).runMicro u
  · exact hpass.done .ok
  · exact hpass
  · exact (hpass.setOffers rest).refuse .eIllegal
  · exact (hpass.setOffers rest).exec_request (isRequest_of_decodeRequest hd) hexec

/-- Settles O56: every case of a step extends the state before it (`step_extends`). -/
theorem historyOnlyGrows : Obligations.HistoryOnlyGrows := by
  unfold Obligations.HistoryOnlyGrows
  intro s t h
  obtain ⟨htrace, hpulses, hnow, hcfg⟩ := step_extends h
  exact ⟨htrace, hpulses, hnow, hcfg⟩

end Sys2Proof.Machine

/-! ### Only `init` and `SETBL` write the registers (spec R21, R23, R24, R26) -/

namespace Sys2Proof.Machine

/-- The step from `s` to `t` took an `init` with a legal width, whose operands `ADDR`, `WIDTH` and `BL` now are. -/
def InitTaken (s t : State) : Prop :=
  s.wire = [] ∧ s.phase = .idle ∧
    ∃ r rest a f w, s.offers = r :: rest ∧ decodeRequest r = .ok (.init a f w) ∧ w ≠ 0 ∧
      t.addr = a ∧ t.width = w ∧ t.bl = pInitBl s.cfg f

/-- The step from `s` to `t` ran a `SETBL`, whose mask `BL` now is. -/
def SetblRun (s t : State) : Prop :=
  s.wire = [] ∧ s.phase ≠ .idle ∧ ∃ m ops, s.q = .setbl m :: ops ∧ t.bl = m &&& 0x08#8

/-- An `XFER` writes no register, whatever its outcome (spec R206). -/
theorem sameRegisters_xfer (s : State) (rs : Bool) (v : Byte) : s.sameRegisters (s.xfer rs v) := by
  obtain ⟨_, hx⟩ | ⟨k, _, hx⟩ := xfer_cases s rs v
  · exact hx ▸ ⟨rfl, rfl, rfl⟩
  · exact hx ▸ ⟨rfl, rfl, rfl⟩

/-- What a step can do to the registers: nothing, or the loads of an `init`, or a `SETBL`, which writes `BL` alone. -/
theorem step_registers {s t : State} (h : step s = .next t) :
    s.sameRegisters t ∨ InitTaken s t ∨ (SetblRun s t ∧ t.addr = s.addr ∧ t.width = s.width) := by
  obtain ⟨b, rest, _, _, rfl⟩ | ⟨hw, hp, u, ops, hq, rfl⟩ | ⟨_, _, _, rfl⟩ | ⟨_, _, _, rfl⟩ |
    ⟨hw, hp, r, rest, ho, ⟨_, rfl⟩ | ⟨i, hd, hexec⟩⟩ := step_cases h
  · exact .inl ⟨rfl, rfl, rfl⟩
  · cases u with
    | setbl m => exact .inr (.inr ⟨⟨hw, hp, m, ops, hq, rfl⟩, rfl, rfl⟩)
    | xfer rs v => exact .inl (sameRegisters_xfer (s.pass.setQ ops) rs v)
    | wait d => exact .inl ⟨rfl, rfl, rfl⟩
  · exact .inl ⟨rfl, rfl, rfl⟩
  · exact .inl ⟨rfl, rfl, rfl⟩
  · exact .inl ⟨rfl, rfl, rfl⟩
  · obtain ⟨ops, _, _, he⟩ | ⟨a, f, w, rfl, hwidth, he⟩ | ⟨resp, he, _⟩ :=
        exec_request_cases (isRequest_of_decodeRequest hd) (s.pass.setOffers rest) <;>
      obtain rfl := Host.Outcome.next.inj (he.symm.trans hexec)
    · exact .inl ⟨rfl, rfl, rfl⟩
    · exact .inr (.inl ⟨hw, hp, r, rest, a, f, w, ho, hd, hwidth, rfl, rfl, pInitBl_and_blBits s.cfg f⟩)
    · exact .inl ⟨rfl, rfl, rfl⟩

/-- Settles O54: of what a step can do to the registers (`step_registers`), only `init` changes `ADDR` or `WIDTH`, and
only `init` and `SETBL` change `BL`. -/
theorem onlyInitAndSetblWriteRegisters : Obligations.OnlyInitAndSetblWriteRegisters := by
  unfold Obligations.OnlyInitAndSetblWriteRegisters
  intro s t h
  obtain ⟨haddr, hbl, hwidth⟩ | hinit | ⟨hsetbl, haddr, hwidth⟩ := step_registers h
  · exact ⟨fun hne => absurd hne (by simp [haddr, hwidth]), fun hne => absurd hbl hne⟩
  · exact ⟨fun _ => hinit, fun _ => .inl hinit⟩
  · exact ⟨fun hne => absurd hne (by simp [haddr, hwidth]), fun _ => .inr hsetbl⟩

end Sys2Proof.Machine

/-! ### Every step keeps the invariant (spec R24, R25, R26, R28, R108)

First the parts of the invariant: queues, bytes on the wire, latches. Then `State.Inv` is carried along each shared operation,
under the condition that the operation's callers meet, and so along the cases of a step. -/

namespace Sys2Proof.Machine

/-- What follows the head of a settled queue is settled. -/
theorem settledQueue_of_cons {u : MicroOp} {ops : List MicroOp} (h : settledQueue (u :: ops) = true) :
    settledQueue ops = true := by
  cases u with
  | setbl m => exact (Bool.and_eq_true_iff.1 h).2
  | wait d => exact h
  | xfer rs v =>
    cases ops with
    | nil => rfl
    | cons u' ops' =>
      cases u' with
      | wait d => exact (Bool.and_eq_true_iff.1 h).2
      | setbl _ | xfer _ _ => cases h

theorem settledQueue_initBody (f : Bool) : settledQueue (initBody f) = true := by
  cases f <;> decide

theorem legalWire_nil (bl : Byte) : legalWire bl [] := by
  simp [legalWire]

/-- What is left on a legal wire after its first byte is legal. -/
theorem legalWire_of_cons {bl b : Byte} {rest : List Byte} (h : legalWire bl (b :: rest)) : legalWire bl rest := by
  obtain ⟨hlines, hlast⟩ := h
  refine ⟨fun c hc => hlines c (List.mem_cons_of_mem b hc), fun c hc => hlast c ?_⟩
  rw [List.getLast?_cons, hc, Option.getD_some]

/-- A byte on a legal wire that has `E` high is not the last one (spec R61). -/
theorem ne_nil_of_lineE {bl b : Byte} {rest : List Byte} (h : legalWire bl (b :: rest)) (hE : lineE b = true) :
    rest ≠ [] := by
  rintro rfl
  have hlow : lineE b = false := h.2 b rfl
  simp [hE] at hlow

/-- A frame formed from the current `BL` is legal (spec R61, R62, R100). -/
theorem legalWire_frame (s : State) (rs : Bool) (v : Byte) : legalWire s.bl (frame rs v s.readBl) := by
  rw [frame_eq_expanderBytes]
  simp [legalWire]

/-- What is in a canonical memory after a write: the byte written, and the latches at other addresses. -/
theorem Memory.mem_write_of_wf {m : Memory} {a : Nat} {b : Byte} {c : Host.Cell} (hm : m.wf) (ha : a < 128)
    (h : c ∈ m.write a b) : c = (a, b) ∨ (c ∈ m ∧ c.1 ≠ a) := by
  obtain ⟨x, y⟩ := c
  have hread : (m.write a b).read x = some y := (Memory.mem_iff_read (Memory.write_wf hm ha)).1 h
  by_cases hx : x = a
  · subst hx
    rw [Memory.read_write_same] at hread
    exact .inl (Prod.ext rfl (Option.some.inj hread).symm)
  · rw [Memory.read_write_other m b hx] at hread
    exact .inr ⟨(Memory.mem_iff_read hm).2 hread, hx⟩

namespace State.Inv

variable {s t : State}

/-- Between transactions every known latch has `RW` and `E` low (spec R28). -/
theorem latch_low (h : s.Inv) (hw : s.wire = []) {c : Host.Cell} (hc : c ∈ s.mem) :
    lineRw c.2 = false ∧ lineE c.2 = false := by
  obtain ⟨hRw, hE⟩ := h.latches c hc
  exact ⟨hRw, Bool.eq_false_iff.2 fun hhigh => (hE hhigh).1 hw⟩

/-- Between transactions the latches are legal for whatever `ADDR` and wire come next. -/
theorem latches_of_wire_nil (h : s.Inv) (hw : s.wire = []) (hmem : t.mem = s.mem) : legalLatches t := by
  intro c hc
  obtain ⟨hRw, hE⟩ := h.latch_low hw (hmem ▸ hc)
  exact ⟨hRw, fun hhigh => by simp [hE] at hhigh⟩

/-! Operations that touch no part of the invariant. -/

theorem pass (h : s.Inv) : s.pass.Inv := { h with }

theorem setOffers (h : s.Inv) (rs : List Request) : (s.setOffers rs).Inv := { h with }

theorem refuse (h : s.Inv) (resp : Response) : (s.refuse resp).Inv := { h with }

theorem wait (h : s.Inv) (d : Nat) : (s.wait d).Inv := { h with }

theorem transact (h : s.Inv) (rs : Bool) (v : Byte) : (s.transact rs v).Inv := { h with }

/-! Register writes: `ADDR` and `BL` are written between transactions only. -/

theorem writeAddr (h : s.Inv) (hw : s.wire = []) (a : Addr) : (s.writeAddr a).Inv :=
  { h with latches := h.latches_of_wire_nil hw rfl }

theorem writeWidth (h : s.Inv) {w : Byte} (hwidth : w ≠ 0) : (s.writeWidth w).Inv :=
  { h with width := hwidth }

theorem writeBl (h : s.Inv) (hw : s.wire = []) (m : Byte) : (s.writeBl m).Inv :=
  { h with
    bl := and_blBits_cases m
    wire := by simpa [hw] using legalWire_nil (m &&& blBits) }

/-! The queue, and the beginning and end of a request. -/

theorem setQ (h : s.Inv) {ops : List MicroOp} (hidle : s.phase = .idle → ops = []) (hq : settledQueue ops = true) :
    (s.setQ ops).Inv :=
  { h with
    seq := ⟨h.seq.1, fun hp => ⟨hidle hp, (h.seq.2 hp).2⟩⟩
    queue := hq }

theorem accept (h : s.Inv) (i : Instr) {ops : List MicroOp} (hq : settledQueue ops = true) : (s.accept i ops).Inv :=
  { h with
    seq := by simp [legalSeq]
    queue := hq }

theorem done (h : s.Inv) (hw : s.wire = []) (hq : s.q = []) (resp : Response) : (s.done resp).Inv :=
  { h with seq := by simp [legalSeq, hw, hq] }

theorem raise (h : s.Inv) (hw : s.wire = []) (resp : Response) : (s.raise resp).Inv :=
  (h.setQ (fun _ => rfl) rfl).done hw rfl resp

/-! Transactions. -/

theorem loseExpander (h : s.Inv) : s.loseExpander.Inv :=
  { h with
    mem := Memory.forget_wf h.mem
    latches := fun c hc => h.latches c (Memory.mem_forget hc).1 }

/-- A frame of the current `BL` goes on the wire of a block that is not `IDLE`. -/
theorem issue_frame (h : s.Inv) (hw : s.wire = []) (hp : s.phase ≠ .idle) (shown rs : Bool) (v : Byte) :
    (s.issue shown (frame rs v s.readBl)).Inv :=
  { h with
    seq := ⟨h.seq.1, fun hidle => absurd hidle hp⟩
    wire := legalWire_frame s rs v
    latches := h.latches_of_wire_nil hw rfl
    line := by simp [legalLine, frame_eq_expanderBytes] }

theorem xfer (h : s.Inv) (hw : s.wire = []) (hp : s.phase ≠ .idle) (rs : Bool) (v : Byte) : (s.xfer rs v).Inv := by
  obtain ⟨_, hx⟩ | ⟨k, _, hx⟩ := xfer_cases s rs v
  · exact hx ▸ (h.transact rs v).issue_frame hw hp s.backlightLine rs v
  · exact hx ▸ (h.transact rs v).loseExpander.raise hw (.eBus k)

theorem runMicro (h : s.Inv) (hw : s.wire = []) (hp : s.phase ≠ .idle) : ∀ u : MicroOp, (s.runMicro u).Inv
  | .setbl m => h.writeBl hw m
  | .xfer rs v => h.xfer hw hp rs v
  | .wait d => h.wait d

/-- The expander takes the first byte of the wire. The latch written may have `E` high only while more bytes follow, and it
is the only one at its address, the memory being canonical. -/
theorem takeByte (h : s.Inv) {b : Byte} {rest : List Byte} (hw : s.wire = b :: rest) :
    ((s.setWire rest).expanderWrite b).Inv := by
  have haddr : s.addr.toNat < 128 := s.addr.isLt
  have hwire : legalWire s.bl (b :: rest) := hw ▸ h.wire
  refine { h with
    mem := Memory.write_wf h.mem haddr
    seq := ⟨h.seq.1, fun hidle => ?_⟩
    wire := legalWire_of_cons hwire
    latches := fun c hc => ?_
    line := ?_ }
  · have hnil : s.wire = [] := (h.seq.2 hidle).2
    simp [hw] at hnil
  · obtain rfl | ⟨hold, hother⟩ := Memory.mem_write_of_wf h.mem haddr hc
    · exact ⟨(hwire.1 b List.mem_cons_self).1, fun hhigh => ⟨ne_nil_of_lineE hwire hhigh, rfl⟩⟩
    · obtain ⟨hRw, hE⟩ := h.latches c hold
      exact ⟨hRw, fun hhigh => absurd (hE hhigh).2 hother⟩
  · have hheld : s.lineHeld ≠ none := fun hnone => by simp [h.line.1 hnone] at hw
    simp [legalLine, hheld]

/-- The meaning of a request at a block with nothing on the wire, accepted or refused, keeps the invariant. -/
theorem exec_request (h : s.Inv) (hw : s.wire = []) {i : Instr} (hi : i.isRequest = true) (ht : exec i s = .next t) :
    t.Inv := by
  obtain ⟨ops, hq, _, he⟩ | ⟨a, f, w, _, hwidth, he⟩ | ⟨resp, he, _⟩ := exec_request_cases hi s <;>
    obtain rfl := Host.Outcome.next.inj (he.symm.trans ht)
  · exact h.accept i hq
  · exact (((h.writeAddr hw a).writeWidth hwidth).writeBl hw _).accept i (settledQueue_initBody f)
  · exact h.refuse resp

/-- Every case of a step keeps the invariant. -/
theorem step (h : s.Inv) (hstep : step s = .next t) : t.Inv := by
  obtain ⟨b, rest, hw, _, rfl⟩ | ⟨hw, hp, u, ops, hq, rfl⟩ | ⟨hw, _, hq, rfl⟩ | ⟨_, _, _, rfl⟩ |
    ⟨hw, _, r, rest, _, ⟨_, rfl⟩ | ⟨i, hd, hexec⟩⟩ := step_cases hstep
  · exact h.pass.takeByte hw
  · have hops : settledQueue ops = true := settledQueue_of_cons (hq ▸ h.queue)
    exact (h.pass.setQ (fun hidle => absurd hidle hp) hops).runMicro hw hp u
  · exact h.pass.done hw hq .ok
  · exact h.pass
  · exact (h.pass.setOffers rest).refuse .eIllegal
  · exact (h.pass.setOffers rest).exec_request hw (isRequest_of_decodeRequest hd) hexec

end State.Inv

/-- Settles O49: the invariant is carried along every case of a step (`State.Inv.step`). -/
theorem stepKeepsTheInvariant : Obligations.StepKeepsTheInvariant := by
  unfold Obligations.StepKeepsTheInvariant
  exact fun _ _ h hstep => h.step hstep

end Sys2Proof.Machine

/-! ### The memory of the latches (spec R28, R40, R41)

A canonical memory is determined by its reads. A step stores to the latch at `ADDR` alone, by a byte that the expander takes, or
loses it, by a failed transaction. -/

namespace Sys2Proof.Machine

/-- Canonical memories with the same reads list the same cells, in the one order that rises. -/
theorem Memory.eq_of_read_eq {m m' : Memory} (hm : m.wf) (hm' : m'.wf) (h : ∀ a, m.read a = m'.read a) : m = m' := by
  have : Std.Irrefl fun x y : Host.Cell => x.1 < y.1 := ⟨fun x => lt_irrefl x.1⟩
  have : Std.Antisymm fun x y : Host.Cell => x.1 < y.1 := ⟨fun _ _ hxy hyx => absurd hxy hyx.asymm⟩
  refine hm.1.eq_of_mem_iff hm'.1 fun ⟨a, b⟩ => ?_
  rw [mem_iff_read hm, mem_iff_read hm', h a]

/-- The second write at an address hides the first. -/
theorem Memory.write_write_same {m : Memory} (hm : m.wf) {a : Nat} (ha : a < 128) (b b' : Byte) :
    (m.write a b').write a b = m.write a b := by
  refine eq_of_read_eq (write_wf (write_wf hm ha) ha) (write_wf hm ha) fun x => ?_
  by_cases hx : x = a
  · simp [hx]
  · simp [hx]

/-- Writes at two addresses commute. -/
theorem Memory.write_comm {m : Memory} (hm : m.wf) {a a' : Nat} (ha : a < 128) (ha' : a' < 128) (hne : a ≠ a')
    (b b' : Byte) : (m.write a b).write a' b' = (m.write a' b').write a b := by
  refine eq_of_read_eq (write_wf (write_wf hm ha) ha') (write_wf (write_wf hm ha') ha) fun x => ?_
  by_cases hx : x = a
  · simp [hx, hne]
  · by_cases hx' : x = a'
    · simp [hx', hne.symm]
    · simp [hx, hx']

/-- Settles O59: canonical memories are equal where their reads are (`Memory.eq_of_read_eq`). -/
theorem canonicalMemoriesAreTheirReads : Obligations.CanonicalMemoriesAreTheirReads := by
  unfold Obligations.CanonicalMemoriesAreTheirReads
  exact ⟨fun _ _ hm hm' => Memory.eq_of_read_eq hm hm',
    fun _ _ b b' hm ha => Memory.write_write_same hm ha b b',
    fun _ _ _ b b' hm ha ha' hne => Memory.write_comm hm ha ha' hne b b'⟩

/-- The meaning of a request, accepted or refused, stores to no latch. -/
theorem exec_request_mem {i : Instr} {s t : State} (hi : i.isRequest = true) (ht : exec i s = .next t) :
    t.mem = s.mem := by
  obtain ⟨ops, _, _, he⟩ | ⟨a, f, w, _, _, he⟩ | ⟨resp, he, _⟩ := exec_request_cases hi s <;>
    obtain rfl := Host.Outcome.next.inj (he.symm.trans ht) <;> rfl

/-- What a step can do to the memory: nothing, or the write of a byte from the wire, or the loss of a latch in a failed
transaction, both at `ADDR`. -/
theorem step_mem {s t : State} (h : step s = .next t) :
    t.mem = s.mem ∨
    (∃ b rest, s.wire = b :: rest ∧ t.mem = s.mem.write s.addr.toNat b) ∨
    (s.wire = [] ∧ s.phase ≠ .idle ∧ t.mem = s.mem.forget s.addr.toNat ∧
      ∃ rs v ops k, s.q = .xfer rs v :: ops ∧ s.nextOutcome = .err k) := by
  obtain ⟨b, rest, hw, _, rfl⟩ | ⟨hw, hp, u, ops, hq, rfl⟩ | ⟨_, _, _, rfl⟩ | ⟨_, _, _, rfl⟩ |
    ⟨_, _, r, rest, _, ⟨_, rfl⟩ | ⟨i, hd, hexec⟩⟩ := step_cases h
  · exact .inr (.inl ⟨b, rest, hw, rfl⟩)
  · cases u with
    | setbl m => exact .inl rfl
    | wait d => exact .inl rfl
    | xfer rs v =>
      obtain ⟨_, hx⟩ | ⟨k, hk, hx⟩ := xfer_cases (s.pass.setQ ops) rs v
      · have hmem : ((s.pass.setQ ops).xfer rs v).mem = s.mem := by rw [hx]; rfl
        exact .inl hmem
      · exact .inr (.inr ⟨hw, hp, congrArg State.mem hx, rs, v, ops, k, hq, hk⟩)
  · exact .inl rfl
  · exact .inl rfl
  · exact .inl rfl
  · have hmem : t.mem = (s.pass.setOffers rest).mem := exec_request_mem (isRequest_of_decodeRequest hd) hexec
    exact .inl hmem

/-- Settles O58: the write and the loss that a step can do (`step_mem`) are both at `ADDR`, so a latch that reads otherwise
after the step is the one there. -/
theorem onlyTheLatchAtAddrChanges : Obligations.OnlyTheLatchAtAddrChanges := by
  unfold Obligations.OnlyTheLatchAtAddrChanges
  intro s t a h hne
  obtain hmem | ⟨b, rest, hw, hmem⟩ | ⟨hw, hp, hmem, hfail⟩ := step_mem h <;> rw [hmem] at hne ⊢
  · exact absurd rfl hne
  · obtain rfl : a = s.addr.toNat := of_not_not fun ha => hne (Memory.read_write_other _ b ha)
    exact ⟨rfl, .inl ⟨b, rest, hw, Memory.read_write_same _ _ b⟩⟩
  · obtain rfl : a = s.addr.toNat := of_not_not fun ha => hne (Memory.read_forget_other _ ha)
    exact ⟨rfl, .inr ⟨hw, hp, Memory.read_forget_same _ _, hfail⟩⟩

end Sys2Proof.Machine

/-! ### The four expander bytes (spec R41, R60, R62, R104)

An expander byte is one write of the port; whether that write hands a nibble over depends on the byte's enable line. -/

namespace Sys2Proof.Machine

/-- A byte with the enable line high is stored, and hands nothing over. -/
theorem expanderWrite_of_enable_high {b : Byte} (h : lineE b = true) (s : State) :
    s.expanderWrite b = { s with mem := s.mem.write s.addr.toNat b } := by
  simp [State.expanderWrite, h]

/-- A byte with the enable line low is stored, and hands its own nibble over where the line was high. -/
theorem expanderWrite_of_enable_low {b : Byte} (h : lineE b = false) (s : State) :
    s.expanderWrite b = { s with
      mem := s.mem.write s.addr.toNat b
      pulses := if lineE s.outLatch then s.pulses ++ [⟨lineRs b, lineD b⟩] else s.pulses } := by
  simp [State.expanderWrite, h]

/-- An instruction encoded as an enable-high byte changes the latch at `ADDR`, and nothing else. -/
theorem exec_enableHigh {i : Instr} {d : BitVec 4} {blk rs : Bool} (h : encode i = .byte (expanderByte d blk true rs))
    (s : State) :
    ∃ t, exec i s = .next t ∧ t = { s with mem := t.mem } ∧
      t.mem.read s.addr.toNat = some (expanderByte d blk true rs) ∧
      ∀ a, a ≠ s.addr.toNat → t.mem.read a = s.mem.read a := by
  refine ⟨_, exec_byte h s, ?_, Memory.read_write_same _ _ _, fun a ha => Memory.read_write_other _ _ ha⟩
  rw [expanderWrite_of_enable_high (lineE_expanderByte d blk true rs)]

/-- An instruction encoded as an enable-low byte changes the latch at `ADDR`, hands its nibble over where the enable line was
high, and changes nothing else. -/
theorem exec_enableLow {i : Instr} {d : BitVec 4} {blk rs : Bool} (h : encode i = .byte (expanderByte d blk false rs))
    (s : State) :
    ∃ t, exec i s = .next t ∧ t = { s with mem := t.mem, pulses := t.pulses } ∧
      t.pulses = (if lineE s.outLatch then s.pulses ++ [⟨rs, d⟩] else s.pulses) ∧
      t.mem.read s.addr.toNat = some (expanderByte d blk false rs) ∧
      ∀ a, a ≠ s.addr.toNat → t.mem.read a = s.mem.read a := by
  refine ⟨_, exec_byte h s, rfl, ?_, Memory.read_write_same _ _ _, fun a ha => Memory.read_write_other _ _ ha⟩
  rw [expanderWrite_of_enable_low (lineE_expanderByte d blk false rs), lineRs_expanderByte, lineD_expanderByte]

/-- Settles O25: the four instructions are the expander bytes of the two enable levels (`exec_enableHigh`, `exec_enableLow`)
with register-select 0 and 1. -/
theorem expanderBytesDriveTheLines : Obligations.ExpanderBytesDriveTheLines := by
  unfold Obligations.ExpanderBytesDriveTheLines
  intro d blk s
  exact ⟨exec_enableHigh (rs := false) rfl s, exec_enableHigh (rs := true) rfl s,
    exec_enableLow (rs := false) rfl s, exec_enableLow (rs := true) rfl s⟩

end Sys2Proof.Machine

/-! ### Decoding undoes encoding (spec R60, R62, R68 to R72)

A request is decoded by the fields of its header, which are those it was made of; an expander byte by its lines. -/

namespace Sys2Proof

/-- A row's checks are passed exactly by the requests that meet each of them (spec R73). -/
theorem checked_eq_ok_iff {r : Request} {zero takesPayload : Bool} {i j : Instr} :
    r.checked zero takesPayload i = .ok j ↔
      i = j ∧ r.reserved = 0 ∧ zero = true ∧ (takesPayload = false → r.payload = []) := by
  refine ⟨checked_eq_ok, fun ⟨hi, hres, hzero, hpay⟩ => ?_⟩
  simp only [Request.checked, hi, hres, hzero]
  simpa using hpay

section Header

variable (op : BitVec 4) (s : Bool) (a b c : Byte) (w1 w2 : Word) (payload : List Byte)

@[simp] theorem op_header : Request.op ⟨header op s a b c, w1, w2, payload⟩ = op :=
  (header_fields op s a b c w1 w2 payload).1

@[simp] theorem reserved_header : Request.reserved ⟨header op s a b c, w1, w2, payload⟩ = 0 :=
  (header_fields op s a b c w1 w2 payload).2.1

@[simp] theorem s_header : Request.s ⟨header op s a b c, w1, w2, payload⟩ = s :=
  (header_fields op s a b c w1 w2 payload).2.2.1

@[simp] theorem a_header : Request.a ⟨header op s a b c, w1, w2, payload⟩ = a :=
  (header_fields op s a b c w1 w2 payload).2.2.2.1

@[simp] theorem b_header : Request.b ⟨header op s a b c, w1, w2, payload⟩ = b :=
  (header_fields op s a b c w1 w2 payload).2.2.2.2.1

@[simp] theorem c_header : Request.c ⟨header op s a b c, w1, w2, payload⟩ = c :=
  (header_fields op s a b c w1 w2 payload).2.2.2.2.2

/-- The address of an `init` is read back from the low seven bits of `C`. -/
@[simp] theorem addr_header (addr : Addr) : (header op s a b (0#1 ++ addr)).extractLsb' 0 7 = addr := by
  apply BitVec.eq_of_getLsbD_eq
  intro i hi
  simp only [header, BitVec.getLsbD_extractLsb', BitVec.getLsbD_append]
  interval_cases i <;> simp

/-- The bit above the address of an `init` is 0. -/
@[simp] theorem bit7_header (addr : Addr) : (header op s a b (0#1 ++ addr))[7] = false := by
  rw [← BitVec.getLsbD_eq_getElem]
  simp only [header, BitVec.getLsbD_append]
  simp

end Header

/-- The instruction that an expander byte stands for, by its enable and register-select lines (spec R62). -/
def expanderInstr (d : BitVec 4) (blk e rs : Bool) : Instr :=
  match e, rs with
  | true, false => .cmdEh d blk
  | false, false => .cmdEl d blk
  | true, true => .datEh d blk
  | false, true => .datEl d blk

@[simp] theorem decodeByte_expanderByte (d : BitVec 4) (blk e rs : Bool) :
    decodeByte (expanderByte d blk e rs) = .ok (expanderInstr d blk e rs) := by
  cases blk <;> cases e <;> cases rs <;> revert d <;> decide

/-- Each row reads its operands back from the fields that the encoder put them in, and finds the others 0. -/
theorem decode_encode (i : Instr) : decode (encode i) = .ok i := by
  cases i with
  | cmdEh d blk => exact decodeByte_expanderByte d blk true false
  | cmdEl d blk => exact decodeByte_expanderByte d blk false false
  | datEh d blk => exact decodeByte_expanderByte d blk true true
  | datEl d blk => exact decodeByte_expanderByte d blk false true
  | _ => simp [encode, decode, decodeRequest, checked_eq_ok_iff]

/-- Settles O29: the fields and lines that the decoder reads are those that the encoder wrote (`decode_encode`). -/
theorem decodeOfEncodeIsTheInstruction : Obligations.DecodeOfEncodeIsTheInstruction := by
  unfold Obligations.DecodeOfEncodeIsTheInstruction
  exact decode_encode

end Sys2Proof

/-! ### Encoding undoes decoding (spec R60, R62, R68 to R72, R74)

A request that decodes has 0 in the reserved bits and in every field that its row marks 0, so its header is the one that the
encoder makes of the other fields. -/

namespace Sys2Proof

/-- The request with 0 in the extension words that its opcode does not have (spec R74). -/
def Request.canonical (r : Request) : Request :=
  { r with
    w1 := if 7 ≤ r.op.toNat ∧ r.op.toNat ≤ 9 then r.w1 else 0
    w2 := if 7 ≤ r.op.toNat ∧ r.op.toNat ≤ 9 then r.w2 else 0 }

/-- A header word is its six fields, the highest first (spec R68). -/
theorem Request.w0_eq_fields (r : Request) :
    r.w0 = r.op ++ (r.reserved ++ (BitVec.ofBool r.s ++ (r.a ++ (r.b ++ r.c)))) := by
  apply BitVec.eq_of_getLsbD_eq
  intro i hi
  simp only [Request.op, Request.reserved, Request.s, Request.a, Request.b, Request.c, BitVec.getLsbD_append]
  interval_cases i <;> simp

theorem Request.canonical_eq_header {r : Request} (h : r.reserved = 0) :
    r.canonical = { r.canonical with w0 := header r.op r.s r.a r.b r.c } := by
  have hw : r.w0 = header r.op r.s r.a r.b r.c := by rw [r.w0_eq_fields, h]; rfl
  rw [← hw]
  rfl

theorem Request.op_eq_ofNat {r : Request} {k : Nat} (h : r.op.toNat = k) : r.op = BitVec.ofNat 4 k := by
  rw [← h, BitVec.ofNat_toNat, BitVec.setWidth_eq]

/-- With `C[7]` = 0, as `init` has it, `C` is the address. -/
theorem Request.zero_append_addr {r : Request} (h : r.w0[7] = false) : 0#1 ++ r.w0.extractLsb' 0 7 = r.c := by
  apply BitVec.eq_of_getLsbD_eq
  intro i hi
  simp only [BitVec.getLsbD_append, Request.c]
  interval_cases i <;> simp [h]

/-- A request that decodes is the encoding of what it decodes to, but for extension words that its opcode does not have. -/
theorem encode_of_decodeRequest {r : Request} {i : Instr} (h : decodeRequest r = .ok i) :
    encode i = .request r.canonical := by
  unfold decodeRequest at h
  split at h
  case h_12 => cases h
  all_goals
    next hop =>
    obtain ⟨rfl, hres, hzero, hpay⟩ := checked_eq_ok h
    simp only [Bool.and_eq_true, Bool.not_eq_true', beq_iff_eq, BitVec.getLsbD_eq_getElem, Nat.reduceLT] at hzero
    rw [Request.canonical_eq_header hres, Request.op_eq_ofNat hop]
    simp [encode, Request.canonical, hop, hzero, hpay, Request.zero_append_addr]

/-- A byte that decodes is the encoding of what it decodes to. -/
theorem encode_of_decodeByte {b : Byte} {i : Instr} (h : decodeByte b = .ok i) : encode i = .byte b := by
  obtain ⟨_, hd⟩ | ⟨_, j, hd, _, he⟩ := Machine.decodeByte_cases b
  · exact absurd (hd.symm.trans h) (by simp)
  · obtain rfl : j = i := Except.ok.inj (hd.symm.trans h)
    exact he

/-- Settles O30: what decodes is the encoding of what it decodes to (`encode_of_decodeByte`, `encode_of_decodeRequest`), and the
canonical form keeps the extension words of opcodes 7 to 9. -/
theorem encodeOfDecodeIsTheEncoding : Obligations.EncodeOfDecodeIsTheEncoding := by
  unfold Obligations.EncodeOfDecodeIsTheEncoding
  refine ⟨fun b i => encode_of_decodeByte, fun r i h => ⟨_, _, encode_of_decodeRequest h, fun h7 h9 => ?_⟩⟩
  exact ⟨if_pos ⟨h7, h9⟩, if_pos ⟨h7, h9⟩⟩

/-- Settles O32: of the rows of the decoder, only those of opcodes 7, 8 and 9 name `W1` and `W2`. -/
theorem onlyScrollsReadExtensionWords : Obligations.OnlyScrollsReadExtensionWords := by
  unfold Obligations.OnlyScrollsReadExtensionWords
  intro r w1 w2 hop
  have hsame : ({ r with w1 := w1, w2 := w2 } : Request).op = r.op := rfl
  unfold decodeRequest
  rw [hsame]
  split
  case h_8 | h_9 | h_10 => omega
  all_goals rfl

/-- Settles O28: each sample is decoded by evaluation. -/
theorem sampleWordsDecode : Obligations.SampleWordsDecode := by
  unfold Obligations.SampleWordsDecode
  decide

end Sys2Proof

/-! ### The illegal requests (spec R73)

The mask and match of an opcode's row say of each header field what the decoder's row asks of it; what they leave open, a payload
of another length and a width of 0, makes the decoded instruction ill-formed. -/

namespace Sys2Proof.Machine

/-- A header word meets a mask and match when each of its fields does. -/
theorem and_mask_eq_iff (r : Request) (mask pattern : Word) : r.w0 &&& mask = pattern ↔
    r.op &&& mask.extractLsb' 28 4 = pattern.extractLsb' 28 4 ∧
    r.reserved &&& mask.extractLsb' 25 3 = pattern.extractLsb' 25 3 ∧
    (r.s && mask.getLsbD 24) = pattern.getLsbD 24 ∧
    r.a &&& mask.extractLsb' 16 8 = pattern.extractLsb' 16 8 ∧
    r.b &&& mask.extractLsb' 8 8 = pattern.extractLsb' 8 8 ∧
    r.c &&& mask.extractLsb' 0 8 = pattern.extractLsb' 0 8 := by
  have fields := fun w : Word => Request.w0_eq_fields ⟨w, 0, 0, []⟩
  simp only [Request.op, Request.reserved, Request.s, Request.a, Request.b, Request.c,
    ← BitVec.extractLsb'_and, ← BitVec.getLsbD_and] at fields ⊢
  constructor
  · rintro rfl
    exact ⟨rfl, rfl, rfl, rfl, rfl, rfl⟩
  · rintro ⟨hop, hres, hs, ha, hb, hc⟩
    rw [fields (r.w0 &&& mask), fields pattern, hop, hres, hs, ha, hb, hc]

theorem toNat_w0_shiftRight_28 (r : Request) : (r.w0 >>> 28).toNat = r.op.toNat := by
  have hlt := r.w0.isLt
  simp only [Request.op, BitVec.toNat_ushiftRight, BitVec.extractLsb'_toNat, Nat.shiftRight_eq_div_pow]
  omega

theorem w0_shiftRight_16_and_mask (r : Request) : (r.w0 >>> 16) &&& 0xFF#32 = r.a.setWidth 32 := by
  apply BitVec.eq_of_getLsbD_eq
  intro i hi
  simp only [Request.a, BitVec.getLsbD_and, BitVec.getLsbD_ushiftRight]
  interval_cases i <;> simp

/-- What R73 asks of a request whose opcode has a row. -/
theorem illegalRequest_eq_false_iff {r : Request} {mask pattern : Word}
    (hrow : tableRow r.op.toNat = some (mask, pattern)) :
    illegalRequest r = false ↔
      r.w0 &&& mask = pattern ∧ payloadLegal r.op.toNat r.payload = true ∧ (r.op.toNat = 0 → r.a ≠ 0) := by
  have ha : r.a.setWidth 32 = 0#32 ↔ r.a = 0 := by bv_omega
  simp only [illegalRequest, toNat_w0_shiftRight_28, w0_shiftRight_16_and_mask, hrow]
  simp [ha, and_assoc]

/-- A request with a reserved opcode is illegal. -/
theorem illegalRequest_of_no_row {r : Request} (hrow : tableRow r.op.toNat = none) : illegalRequest r = true := by
  simp only [illegalRequest, toNat_w0_shiftRight_28, hrow]

theorem and_0x80_eq_zero_iff (r : Request) : r.c &&& 0x80#8 = 0#8 ↔ r.w0[7] = false := by
  have hbit : r.w0[7] = r.c[7] := by simp [Request.c]
  rw [hbit]
  generalize r.c = c
  revert c
  decide

/-- The requests that R73 admits are those that decode to a well-formed instruction. -/
theorem illegalRequest_eq_false_iff_decodes (r : Request) :
    illegalRequest r = false ↔ ∃ i, decodeRequest r = .ok i ∧ i.wf := by
  have full3 (x : BitVec 3) : x &&& 7#3 = x := BitVec.and_allOnes
  have full8 (x : Byte) : x &&& 255#8 = x := BitVec.and_allOnes
  unfold decodeRequest
  split
  case h_12 =>
    rw [illegalRequest_of_no_row (by simp [tableRow, *])]
    simp
  all_goals
    next hop =>
    rw [illegalRequest_eq_false_iff (by rw [hop]; rfl), and_mask_eq_iff, Request.op_eq_ofNat hop]
    simp [payloadLegal, checked_eq_ok_iff, Instr.wf, Instr.wellFormed, full3, full8, and_0x80_eq_zero_iff] <;>
      tauto

/-- An ill-formed instruction is refused (spec R73, log 3). -/
theorem exec_of_not_wellFormed {i : Instr} (h : i.wellFormed = false) (s : State) :
    exec i s = .next (s.refuse .eIllegal) := by
  cases i with
  | init a f w =>
    have hw : w = 0 := by simpa [Instr.wellFormed] using h
    simp [exec, execInit, hw]
  | cgram loc rows =>
    have hrows : rows.length ≠ 8 := by simpa [Instr.wellFormed] using h
    simp [exec, execCgram, hrows]
  | _ => simp [Instr.wellFormed] at h

/-- An illegal request is refused, whether its decoder or its meaning finds it so. -/
theorem takeRequest_of_illegal {r : Request} (h : illegalRequest r = true) (s : State) :
    takeRequest r s = .next (s.refuse .eIllegal) := by
  have hnone : ¬ ∃ i, decodeRequest r = .ok i ∧ i.wf := by simp [← illegalRequest_eq_false_iff_decodes, h]
  rcases hd : decodeRequest r with e | i <;> simp only [takeRequest, hd]
  exact exec_of_not_wellFormed (by simpa using fun hwf => hnone ⟨i, hd, hwf⟩) s

/-- A well-formed request is accepted, or is a `cgram` whose location is out of range (spec R107, R160). -/
theorem exec_of_wellFormed {i : Instr} (hi : i.isRequest = true) (hwf : i.wf) (s : State) :
    ∃ t, exec i s = .next t ∧
      ((t.phase = .busy ∧ t.cur = some i ∧ t.trace = s.trace) ∨
        ∃ loc rows, i = .cgram loc rows ∧ 7 < loc.toNat ∧ t = s.refuse (.eRange loc)) := by
  obtain ⟨ops, _, _, he⟩ | ⟨a, f, w, rfl, _, he⟩ |
    ⟨resp, he, ⟨_, hnot⟩ | ⟨loc, rows, hi, _, hloc, rfl⟩⟩ := exec_request_cases hi s
  · exact ⟨_, he, .inl ⟨rfl, rfl, rfl⟩⟩
  · exact ⟨_, he, .inl ⟨rfl, rfl, rfl⟩⟩
  · exact absurd hwf (by simp [Instr.wf, hnot])
  · exact ⟨_, he, .inr ⟨loc, rows, hi, hloc, rfl⟩⟩

/-- Settles O31: the requests that R73 admits are those that decode to a well-formed instruction
(`illegalRequest_eq_false_iff_decodes`), which is accepted or out of range; every other request is refused. -/
theorem illegalRequestsAreExactlyTheRefusedOnes : Obligations.IllegalRequestsAreExactlyTheRefusedOnes := by
  unfold Obligations.IllegalRequestsAreExactlyTheRefusedOnes
  intro s r rest hw hp ho
  rw [step_idle_cons hw hp ho]
  refine ⟨fun hillegal => takeRequest_of_illegal hillegal _, fun hlegal => ?_⟩
  obtain ⟨i, hd, hwf⟩ := (illegalRequest_eq_false_iff_decodes r).1 hlegal
  obtain ⟨t, he, ht⟩ := exec_of_wellFormed (isRequest_of_decodeRequest hd) hwf (s.pass.setOffers rest)
  exact ⟨i, t, hd, hwf, by simp only [takeRequest, hd, he], ht⟩

/-- A request that is taken, whatever it is, is answered by a next state. -/
theorem takeRequest_next (r : Request) (s : State) : ∃ t, takeRequest r s = .next t := by
  rcases hr : illegalRequest r with _ | _
  · obtain ⟨i, hd, hwf⟩ := (illegalRequest_eq_false_iff_decodes r).1 hr
    obtain ⟨t, he, _⟩ := exec_of_wellFormed (isRequest_of_decodeRequest hd) hwf s
    exact ⟨t, by simp only [takeRequest, hd, he]⟩
  · exact ⟨_, takeRequest_of_illegal hr s⟩

/-- With nothing on the wire the sequencer steps, and its steps never stop the machine. -/
theorem step_next_of_wire_nil {s : State} (hw : s.wire = []) : ∃ t, step s = .next t := by
  by_cases hp : s.phase = .idle
  · obtain ho | ⟨r, rest, ho⟩ := nil_or_cons s.offers
    · exact ⟨_, step_idle_nil hw hp ho⟩
    · exact step_idle_cons hw hp ho ▸ takeRequest_next r _
  · obtain hq | ⟨u, ops, hq⟩ := nil_or_cons s.q
    · exact ⟨_, step_queue_nil hw hp hq⟩
    · exact ⟨_, step_queue_cons hw hp hq⟩

/-- Settles O52: a step with nothing on the wire does not stop (`step_next_of_wire_nil`), and a byte on the wire stops it where it
does not decode, which is where its `RW` is set. -/
theorem onlyAReadByteFaults : Obligations.OnlyAReadByteFaults := by
  unfold Obligations.OnlyAReadByteFaults
  intro s
  obtain hw | ⟨b, rest, hw⟩ := nil_or_cons s.wire
  · obtain ⟨t, ht⟩ := step_next_of_wire_nil hw
    simp [ht, hw]
  · obtain ⟨hrw, hd⟩ | ⟨hrw, i, hd, _, he⟩ := decodeByte_cases b
    · have hstep : step s = .fault .readWriteHigh := by simp only [step_wire hw, expanderStep, hd]
      refine ⟨fun f => ⟨fun hf => ?_, fun ⟨hf, _⟩ => hf ▸ hstep⟩, by simp [hstep]⟩
      exact ⟨(Host.Outcome.fault.inj (hstep.symm.trans hf)).symm, b, rest, hw, hrw⟩
    · have hstep : step s = .next ((s.pass.setWire rest).expanderWrite b) := by
        simp only [step_wire hw, expanderStep, hd, exec_byte he]
      simp [hstep, hw, hrw]

end Sys2Proof.Machine

/-! ### The framer and the address commands (spec R60 to R63, R66, R67)

A frame is four expander bytes (`frame_eq_expanderBytes`), and what R61 and R62 say of its bytes is what those are by their
fields. -/

namespace Sys2Proof.Machine

theorem readBl_eq_blMask (s : State) : s.readBl = blMask (lineBlk s.bl) := by
  simp only [State.readBl, blBits, lineBlk]
  generalize s.bl = b
  revert b
  decide

/-- The simplification that the data column of R61 rests on. -/
theorem or_0x05_and_0xFB (x : Byte) (h : x.getLsbD 2 = false) : (x ||| 0x05#8) &&& 0xFB#8 = x ||| 0x01#8 := by
  revert x
  decide

theorem nibbleHi_or_readBl_bit2 (s : State) (v : Byte) : (nibbleHi v ||| s.readBl).getLsbD 2 = false := by
  rcases readBl_cases s with hm | hm <;> simp [hm, nibbleHi]

theorem nibbleLo_or_readBl_bit2 (s : State) (v : Byte) : (nibbleLo v ||| s.readBl).getLsbD 2 = false := by
  rcases readBl_cases s with hm | hm <;> simp [hm, nibbleLo]

/-- An `XFER` records its transaction, and after it at most the response of the abort. -/
theorem xfer_trace (s : State) (rs : Bool) (v : Byte) : ∃ events,
    (s.xfer rs v).trace = s.trace ++ .x s.addr (frame rs v s.readBl) s.nextOutcome :: events ∧
      ∀ a bytes o, .x a bytes o ∉ events := by
  obtain ⟨_, hx⟩ | ⟨k, _, hx⟩ := xfer_cases s rs v
  · exact ⟨[], by simp [hx], by simp⟩
  · exact ⟨[.r (.eBus k)], by simp [hx], by simp⟩

/-- Settles O14: the command column is the framer's own, the data column follows with `or_0x05_and_0xFB`, and an `XFER` records
one transaction (`xfer_trace`). -/
theorem frameBytesAreTheTable : Obligations.FrameBytesAreTheTable := by
  unfold Obligations.FrameBytesAreTheTable
  refine ⟨fun _ _ => rfl, fun s v => ?_, fun s rs v => xfer_trace s rs v, or_0x05_and_0xFB,
    fun s v => ⟨nibbleHi_or_readBl_bit2 s v, nibbleLo_or_readBl_bit2 s v⟩⟩
  simp only [frame, or_0x05_and_0xFB _ (nibbleHi_or_readBl_bit2 s v), or_0x05_and_0xFB _ (nibbleLo_or_readBl_bit2 s v)]

section ExpanderByte

variable (d : BitVec 4) (blk e rs : Bool)

/-- Bits [2:0] of an expander byte are its kind (spec R62). -/
theorem expanderByte_kind :
    (expanderByte d blk e rs).extractLsb' 0 3 = BitVec.ofBool e ++ (0#1 ++ BitVec.ofBool rs) := by
  cases blk <;> cases e <;> cases rs <;> revert d <;> decide

/-- Bits [3:0] of an expander byte do not depend on its nibble. -/
theorem expanderByte_lines :
    (expanderByte d blk e rs).extractLsb' 0 4 = BitVec.ofBool blk ++ (BitVec.ofBool e ++ (0#1 ++ BitVec.ofBool rs)) := by
  cases blk <;> cases e <;> cases rs <;> revert d <;> decide

theorem expanderByte_nibble : (expanderByte d blk e rs).extractLsb' 4 4 = d := lineD_expanderByte d blk e rs

theorem expanderByte_and_0xFB : expanderByte d blk e rs &&& 0xFB#8 = expanderByte d blk false rs := by
  cases blk <;> cases e <;> cases rs <;> revert d <;> decide

theorem expanderByte_and_0x08 : expanderByte d blk e rs &&& 0x08#8 = blMask blk := by
  cases blk <;> cases e <;> cases rs <;> revert d <;> decide

end ExpanderByte

theorem nibbles_append (v : Byte) : v.extractLsb' 4 4 ++ v.extractLsb' 0 4 = v := by
  revert v
  decide

/-- Settles O15: the bytes of a frame differ in nibble and enable line alone, and so each relation is one between the fields of
expander bytes. -/
theorem frameBytesAreOfTheFourKinds : Obligations.FrameBytesAreOfTheFourKinds := by
  unfold Obligations.FrameBytesAreOfTheFourKinds
  intro s rs v
  refine ⟨_, _, _, _, frame_eq_expanderBytes rs v s, ?_⟩
  simp only [decodeFrame, readBl_eq_blMask, expanderByte_kind, expanderByte_lines, expanderByte_nibble,
    expanderByte_and_0xFB, expanderByte_and_0x08, lineRs_expanderByte, lineD_expanderByte, nibbles_append]
  cases rs <;> simp

/-- Settles O16: an expander byte decodes to the instruction of its lines (`decodeByte_expanderByte`). -/
theorem frameIsAnEnablePulsePerNibble : Obligations.FrameIsAnEnablePulsePerNibble := by
  unfold Obligations.FrameIsAnEnablePulsePerNibble
  intro s v
  simp [frame_eq_expanderBytes, expanderInstr]

/-- The command is R66's formula on the integers, cut to eight bits. -/
theorem toNat_ddCommand_int (line pos : Byte) :
    ((ddCommand line pos).toNat : Int) = (0x80 + 0x40 * ((line.toNat : Int) - 1) + (pos.toNat : Int)) % 256 := by
  simp only [ddCommand, BitVec.toNat_ofInt]
  omega

theorem toNat_ddCommand (line pos : Byte) :
    (ddCommand line pos).toNat = (0x40 + 0x40 * line.toNat + pos.toNat) % 256 := by
  have h := toNat_ddCommand_int line pos
  omega

/-- Settles O17: the corner cases follow from the formula on the naturals (`toNat_ddCommand`). -/
theorem cursorCommandIsTheFormulaModulo256 : Obligations.CursorCommandIsTheFormulaModulo256 := by
  unfold Obligations.CursorCommandIsTheFormulaModulo256
  refine ⟨fun line pos => ⟨toNat_ddCommand_int line pos, toNat_ddCommand line pos, ?_, ?_⟩, by decide, by decide,
    fun line pos s => ⟨_, rfl, rfl⟩⟩
  · apply BitVec.eq_of_toNat_eq
    simp [toNat_ddCommand]
  · have hline : (line + 4).toNat = (line.toNat + 4) % 256 := BitVec.toNat_add line 4
    apply BitVec.eq_of_toNat_eq
    rw [toNat_ddCommand, toNat_ddCommand, hline]
    omega

/-- Within the eight slots R67's formula does not overflow. -/
theorem toNat_cgCommand {loc : Byte} (h : loc.toNat ≤ 7) : (cgCommand loc).toNat = 0x40 + 8 * loc.toNat := by
  simp only [cgCommand, BitVec.toNat_ofNat]
  omega

/-- The bit fields of the command of a slot. -/
theorem cgCommand_fields : ∀ loc : Byte, loc.toNat ≤ 7 →
    (cgCommand loc).extractLsb' 6 2 = 0b01#2 ∧ (cgCommand loc).extractLsb' 3 3 = loc.extractLsb' 0 3 ∧
      (cgCommand loc).extractLsb' 0 3 = 0b000#3 := by
  decide

/-- Settles O18: the formula and its bits in the eight slots (`toNat_cgCommand`, `cgCommand_fields`), and the range check of the
meaning of `cgram`. -/
theorem glyphCommandIsTheSlotAddress : Obligations.GlyphCommandIsTheSlotAddress := by
  unfold Obligations.GlyphCommandIsTheSlotAddress
  refine ⟨fun loc h => ⟨toNat_cgCommand h, cgCommand_fields loc h⟩, by decide, fun loc rows s hrows hloc => ?_⟩
  simp [exec, execCgram, hrows, hloc, State.refuse, State.emit]

end Sys2Proof.Machine

/-! ### Requests as sequences of `cmd`, `char` and waits (spec R77), and as they are written (spec R76) -/

namespace Sys2Proof.Machine

/-- A piece that R77 composes requests of: the expansion of a `cmd`, of a `char`, or a wait. -/
def IsPrimitive (ops : List MicroOp) : Prop :=
  (∃ v, ops = send false v) ∨ (∃ v, ops = send true v) ∨ ∃ d, ops = [.wait d]

/-- A queue that is a sequence of such pieces. -/
def PrimitiveSeq (ops : List MicroOp) : Prop :=
  ∃ pieces : List (List MicroOp), ops = pieces.flatten ∧ ∀ p ∈ pieces, IsPrimitive p

namespace PrimitiveSeq

theorem single {ops : List MicroOp} (h : IsPrimitive ops) : PrimitiveSeq ops := ⟨[ops], by simp, by simpa using h⟩

theorem append {ops ops' : List MicroOp} : PrimitiveSeq ops → PrimitiveSeq ops' → PrimitiveSeq (ops ++ ops')
  | ⟨ps, h, hps⟩, ⟨ps', h', hps'⟩ =>
    ⟨ps ++ ps', by simp [h, h'], fun p hp => (List.mem_append.1 hp).elim (hps p) (hps' p)⟩

theorem flatten {bodies : List (List MicroOp)} (h : ∀ body ∈ bodies, PrimitiveSeq body) : PrimitiveSeq bodies.flatten := by
  induction bodies with
  | nil => exact ⟨[], rfl, by simp⟩
  | cons body bodies ih =>
    obtain ⟨hbody, hbodies⟩ := List.forall_mem_cons.1 h
    exact hbody.append (ih hbodies)

theorem flatMap {α : Type} {f : α → List MicroOp} (h : ∀ x, PrimitiveSeq (f x)) (xs : List α) :
    PrimitiveSeq (xs.flatMap f) :=
  flatten fun body hbody => by
    obtain ⟨x, _, rfl⟩ := List.mem_map.1 hbody
    exact h x

theorem writeOps (text : List Byte) (line pos : Byte) : PrimitiveSeq (writeOps text line pos) :=
  (single (.inl ⟨_, rfl⟩)).append (flatMap (fun v => single (.inr (.inl ⟨v, rfl⟩))) text)

theorem wait (d : Nat) : PrimitiveSeq [.wait d] := single (.inr (.inr ⟨d, rfl⟩))

theorem passes {body : List MicroOp} (h : PrimitiveSeq body) (r : Nat) : PrimitiveSeq (passes r body) :=
  flatten fun _ hmem => List.eq_of_mem_replicate hmem ▸ h

theorem windowPass (windows : List (List Byte)) (line : Byte) (d : Nat) : PrimitiveSeq (windowPass windows line d) :=
  flatMap (fun s => (writeOps s line 0).append (wait d)) windows

theorem pairPass (lines : List (List Byte)) (d : Nat) : PrimitiveSeq (pairPass lines d) :=
  flatMap (fun p : List Byte × List Byte => ((writeOps p.1 1 0).append (writeOps p.2 2 0)).append (wait d))
    (lines.zip lines.tail)

end PrimitiveSeq

/-- Settles O27: `cmd` and `char` send one byte (`send`), of which the expansions of the composite requests are made by
definition; a scroll repeats passes of writes and waits (`PrimitiveSeq`). -/
theorem compositeRequestsAreSequencesOfPrimitives : Obligations.CompositeRequestsAreSequencesOfPrimitives := by
  unfold Obligations.CompositeRequestsAreSequencesOfPrimitives
  intro s text rows line pos loc on delay reps hrows hloc
  refine ⟨send false, send true, fun v => ⟨_, rfl, rfl⟩, fun v => ⟨_, rfl, rfl⟩, ⟨_, rfl, rfl⟩, ⟨_, rfl, rfl⟩,
    ⟨_, rfl, rfl⟩, ⟨_, rfl, rfl⟩, ⟨s.accept (.cgram loc rows) (cgramOps loc rows), ?_, rfl⟩, ?_⟩
  · simp [exec, execCgram, hrows, hloc]
  · have scroll {i : Instr} {ops : List MicroOp} (he : exec i s = .next (s.accept i ops)) (h : PrimitiveSeq ops) :
        ∃ t pieces, exec i s = .next t ∧ t.q = List.flatten pieces ∧ ∀ p ∈ pieces, IsPrimitive p := by
      obtain ⟨pieces, hops, hpieces⟩ := h
      exact ⟨_, pieces, he, hops, hpieces⟩
    simp only [List.forall_mem_cons, List.not_mem_nil, false_imp_iff, implies_true, and_true]
    exact ⟨scroll rfl ((PrimitiveSeq.windowPass _ _ _).passes _), scroll rfl ((PrimitiveSeq.windowPass _ _ _).passes _),
      scroll rfl ((PrimitiveSeq.pairPass _ _).passes _)⟩

/-- Settles O60: each operand left off is filled in by definition. -/
theorem omittedOperandsTakeTheDefaults : Obligations.OmittedOperandsTakeTheDefaults := by
  unfold Obligations.OmittedOperandsTakeTheDefaults
  intro text line d
  exact ⟨rfl, rfl, rfl, rfl, rfl, rfl, rfl, rfl, rfl⟩

end Sys2Proof.Machine

/-! ### The step and its instruction (spec R107, R49, R255), and the frame of a request (spec R21, R107, R203)

A step is `exec` of what it decodes, after the time of the step; what `exec` of a request leaves alone is said once, for both its
answers. -/

namespace Sys2Proof.Machine

theorem takeRequest_of_decodes {r : Request} {i : Instr} (h : decodeRequest r = .ok i) (s : State) :
    takeRequest r s = exec i s := by
  simp only [takeRequest, h]

theorem expanderStep_of_decodes {b : Byte} {i : Instr} (h : decodeByte b = .ok i) (s : State) :
    expanderStep b s = exec i s := by
  simp only [expanderStep, h]

/-- A decoded expander byte is no request. -/
theorem isRequest_of_decodeByte {b : Byte} {i : Instr} (h : decodeByte b = .ok i) : i.isRequest = false := by
  obtain ⟨_, hd⟩ | ⟨_, j, hd, hj, _⟩ := decodeByte_cases b
  · exact absurd (hd.symm.trans h) (by simp)
  · exact Except.ok.inj (hd.symm.trans h) ▸ hj

/-- Settles O5: the cases of a step with a request to take and with a byte on the wire (`step_idle_cons`, `step_wire`). -/
theorem stepRunsTheDecodedInstruction : Obligations.StepRunsTheDecodedInstruction := by
  unfold Obligations.StepRunsTheDecodedInstruction
  refine ⟨fun s r rest i hw hp ho hd => ?_, fun s b rest i hw hd => ?_, pass_eq⟩
  · rw [step_idle_cons hw hp ho, takeRequest_of_decodes hd]
    rfl
  · rw [step_wire hw, expanderStep_of_decodes hd]
    rfl

theorem decode_tableWord {nbits w : Nat} {i : Instr} (h : decodeTableWord nbits w = some i) :
    decode (tableWord nbits w) = .ok i := by
  unfold decodeTableWord at h
  split at h
  · next hd => exact hd.trans (congrArg Except.ok (Option.some.inj h))
  · cases h

/-- Settles O6: a placed request is the one offered to an idle block, a placed byte the next one on the wire, so the step takes
it and runs what it decodes to. -/
theorem placedWordRunsNext : Obligations.PlacedWordRunsNext := by
  unfold Obligations.PlacedWordRunsNext
  intro s nbits w i h
  have hdecode : decode (tableWord nbits w) = .ok i := decode_tableWord h
  unfold State.withFetchWord
  generalize tableWord nbits w = enc at hdecode ⊢
  cases enc with
  | request r =>
    have hd : decodeRequest r = .ok i := hdecode
    rw [if_pos (isRequest_of_decodeRequest hd), State.place, step_idle_cons rfl rfl rfl, takeRequest_of_decodes hd]
    rfl
  | byte b =>
    have hd : decodeByte b = .ok i := hdecode
    rw [if_neg (by simp [isRequest_of_decodeByte hd]), State.place, step_wire rfl, expanderStep_of_decodes hd]
    rfl

/-- Settles O26: an accepted request sets the sequencer, after the register writes of `init`, and a refused one records its
response (`exec_request_cases`). -/
theorem requestFrame : Obligations.RequestFrame := by
  unfold Obligations.RequestFrame
  intro i s t hi ht
  obtain ⟨ops, _, _, he⟩ | ⟨a, f, w, rfl, _, he⟩ | ⟨resp, he, hresp⟩ := exec_request_cases hi s <;>
    obtain rfl := Host.Outcome.next.inj (he.symm.trans ht) <;>
    refine ⟨fun _ => rfl, rfl, rfl, rfl, rfl, rfl, rfl, rfl, rfl, rfl, ?_, ?_⟩
  · exact fun _ => ⟨rfl, rfl, rfl⟩
  · exact .inl ⟨rfl, rfl, rfl⟩
  · exact fun hne => absurd rfl (hne a f w)
  · exact .inl ⟨rfl, rfl, rfl⟩
  · exact fun _ => ⟨rfl, rfl, rfl⟩
  · have hne : resp ≠ .ok := by
      obtain ⟨rfl, _⟩ | ⟨loc, rows, _, _, _, rfl⟩ := hresp <;> simp
    exact .inr ⟨rfl, rfl, rfl, ⟨rfl, rfl, rfl⟩, resp, hne, rfl⟩

/-- A `cgram` that R73 admits, with a location out of range, is refused and nothing else (spec R160). -/
theorem exec_cgram_of_out_of_range {loc : Byte} {rows : List Byte} (hwf : (Instr.cgram loc rows).wf) (hloc : 7 < loc.toNat)
    (s : State) : exec (.cgram loc rows) s = .next (s.refuse (.eRange loc)) := by
  have hrows : rows.length = 8 := by simpa [Instr.wf, Instr.wellFormed] using hwf
  simp [exec, execCgram, hrows, hloc]

/-- A request that R73 admits decodes to a well-formed instruction. -/
theorem wf_of_legal {r : Request} {i : Instr} (h : illegalRequest r = false) (hd : decodeRequest r = .ok i) : i.wf := by
  obtain ⟨j, hj, hwf⟩ := (illegalRequest_eq_false_iff_decodes r).1 h
  exact Except.ok.inj (hj.symm.trans hd) ▸ hwf

/-- Settles O4: the cases of a step with nothing on the wire; a legal request is accepted unless it is a `cgram` out of range
(`exec_of_wellFormed`), and `exec` leaves the offers alone (`requestFrame`). -/
theorem sequencerStepsAsDescribed : Obligations.SequencerStepsAsDescribed := by
  unfold Obligations.SequencerStepsAsDescribed
  intro s hw
  refine ⟨fun r rest hp ho hill => ?_, fun r rest loc rows hp ho hleg hd hloc => ?_,
    fun r rest i hp ho hleg hd hrange => ?_, fun u ops hp hq => step_queue_cons hw hp hq,
    fun hp hq => step_queue_nil hw hp hq⟩
  · rw [step_idle_cons hw hp ho, takeRequest_of_illegal hill]
    rfl
  · rw [step_idle_cons hw hp ho, takeRequest_of_decodes hd, exec_cgram_of_out_of_range (wf_of_legal hleg hd) hloc]
    rfl
  · have hi : i.isRequest = true := isRequest_of_decodeRequest hd
    rw [step_idle_cons hw hp ho, takeRequest_of_decodes hd]
    obtain ⟨t, he, ⟨hphase, hcur, htrace⟩ | ⟨loc, rows, rfl, hloc, _⟩⟩ :=
      exec_of_wellFormed hi (wf_of_legal hleg hd) (s.pass.setOffers rest)
    · obtain ⟨_, _, _, _, _, hoffers, _⟩ := requestFrame i _ t hi he
      exact ⟨t, he, he, hphase, hcur, hoffers, htrace⟩
    · exact absurd (hrange loc rows rfl) (by omega)

end Sys2Proof.Machine

/-! ### `SETBL`, `WAIT` and the two primitive requests (spec R102, R103, R105, R106)

`SETBL` stands in the expansions of `init` and `backlight` alone: those of the other requests are sequences of `cmd`, `char` and
waits (`PrimitiveSeq`). -/

namespace Sys2Proof.Machine

theorem setbl_not_mem_of_primitiveSeq {ops : List MicroOp} (h : PrimitiveSeq ops) (m : Byte) : .setbl m ∉ ops := by
  obtain ⟨pieces, rfl, hpieces⟩ := h
  intro hmem
  obtain ⟨piece, hpiece, hm⟩ := List.mem_flatten.1 hmem
  obtain ⟨v, rfl⟩ | ⟨v, rfl⟩ | ⟨d, rfl⟩ := hpieces piece hpiece <;> simp [send] at hm

theorem PrimitiveSeq.send (rs : Bool) (v : Byte) : PrimitiveSeq (send rs v) :=
  match rs with
  | false => single (.inl ⟨v, rfl⟩)
  | true => single (.inr (.inl ⟨v, rfl⟩))

theorem setbl_mem_backlightOps {on : Bool} {m : Byte} (h : .setbl m ∈ backlightOps on) : m = blMask on := by
  simpa [backlightOps, send] using h

theorem setbl_mem_initBody {f : Bool} {m : Byte} (h : .setbl m ∈ initBody f) : m = blMask f := by
  simpa [initBody, backlightOps, send] using h

/-- The queue after the meaning of an instruction: as before, or the expansion of the request. -/
theorem exec_queue_cases {i : Instr} {s t : State} (h : exec i s = .next t) :
    t.q = s.q ∨ PrimitiveSeq t.q ∨ (∃ a f w, i = .init a f w ∧ t.q = initBody f) ∨
      ∃ on, i = .backlight on ∧ t.q = backlightOps on := by
  have accepted {j : Instr} {ops : List MicroOp} (he : exec i s = .next (s.accept j ops)) : t.q = ops := by
    obtain rfl := Host.Outcome.next.inj (he.symm.trans h)
    rfl
  cases i with
  | init a f w =>
    simp only [exec, execInit] at h
    split at h <;> obtain rfl := Host.Outcome.next.inj h
    · exact .inl rfl
    · exact .inr (.inr (.inl ⟨a, f, w, rfl, rfl⟩))
  | backlight on => exact .inr (.inr (.inr ⟨on, rfl, accepted rfl⟩))
  | cmd v => exact .inr (.inl (accepted rfl ▸ .send false v))
  | char v => exact .inr (.inl (accepted rfl ▸ .send true v))
  | cursor line pos => exact .inr (.inl (accepted rfl ▸ .send false _))
  | write text line pos => exact .inr (.inl (accepted rfl ▸ .writeOps text line pos))
  | clear => exact .inr (.inl (accepted rfl ▸ (PrimitiveSeq.send false _).append (.wait _)))
  | scrollL text line delay reps => exact .inr (.inl (accepted rfl ▸ (PrimitiveSeq.windowPass _ _ _).passes _))
  | scrollR text line delay reps => exact .inr (.inl (accepted rfl ▸ (PrimitiveSeq.windowPass _ _ _).passes _))
  | scrollV text delay reps => exact .inr (.inl (accepted rfl ▸ (PrimitiveSeq.pairPass _ _).passes _))
  | cgram loc rows =>
    simp only [exec, execCgram] at h
    split at h
    · obtain rfl := Host.Outcome.next.inj h
      exact .inl rfl
    · split at h <;> obtain rfl := Host.Outcome.next.inj h
      · exact .inl rfl
      · exact .inr (.inl (((PrimitiveSeq.send false _).append (.flatMap (.send true) rows)).append (.send false _)))
  | cmdEh d blk | cmdEl d blk | datEh d blk | datEl d blk =>
    obtain rfl := Host.Outcome.next.inj h
    exact .inl rfl

/-- Settles O9: a mask is kept by the hard-wired bits; the queues that an instruction can leave (`exec_queue_cases`) have a `SETBL`
only where R103 says; an `XFER` writes no register (`sameRegisters_xfer`). -/
theorem setblWritesTheMaskAndNothingElse : Obligations.SetblWritesTheMaskAndNothingElse := by
  unfold Obligations.SetblWritesTheMaskAndNothingElse
  have mask (f : Bool) : blMask f = 0x00#8 ∨ blMask f = 0x08#8 := by cases f <;> simp [blMask]
  refine ⟨fun s m hm => ?_, fun i s t m he hmem hnot => ?_, fun s rs v k _ => (sameRegisters_xfer s rs v).2.1⟩
  · have hkept : m &&& blBits = m := by rcases hm with rfl | rfl <;> rfl
    simp only [State.runMicro, State.setbl, State.writeBl, hkept]
  · obtain hq | hq | ⟨a, f, w, hi, hq⟩ | ⟨on, hi, hq⟩ := exec_queue_cases he
    · exact absurd (hq ▸ hmem) hnot
    · exact absurd hmem (setbl_not_mem_of_primitiveSeq hq m)
    · exact ⟨setbl_mem_initBody (hq ▸ hmem) ▸ mask f, .inl ⟨a, f, w, hi⟩⟩
    · exact ⟨setbl_mem_backlightOps (hq ▸ hmem) ▸ mask on, .inr ⟨on, hi⟩⟩

/-- Settles O10: the time that `State.wait` sets is late enough (`wait_now_ge`), and `WAIT(0)` sets none. -/
theorem waitHoldsAtLeastItsOperand : Obligations.WaitHoldsAtLeastItsOperand := by
  unfold Obligations.WaitHoldsAtLeastItsOperand
  exact fun s d => ⟨_, rfl, wait_now_ge s d, fun hd => if_pos hd⟩

/-- Settles O20: the meaning of both is the acceptance of the byte's `send`. -/
theorem primitiveRequestsAreAccepted : Obligations.PrimitiveRequestsAreAccepted := by
  unfold Obligations.PrimitiveRequestsAreAccepted
  exact fun v s => ⟨rfl, rfl⟩

end Sys2Proof.Machine

/-! ### A successful transaction, byte by byte (spec R49, R101, R104)

The bytes of a frame are two enable pulses, one for each nibble of the controller byte; each pulse takes two steps
(`pulse_steps`), in which only the expander and the time move on (`Delivers`). -/

namespace Sys2Proof.Machine

/-- From `s` to `t` bytes went from the wire to the expander at `ADDR`, and nothing else happened but that time passed. -/
structure Delivers (s t : State) : Prop where
  frame : t = { s with
    mem := t.mem, wire := t.wire, lineHeld := t.lineHeld, pulses := t.pulses, now := t.now, steps := t.steps }
  now : s.now ≤ t.now
  others : ∀ a, a ≠ s.addr.toNat → t.mem.read a = s.mem.read a

namespace Delivers

variable {s t u : State}

theorem addr (h : Delivers s t) : t.addr = s.addr := by rw [h.frame]

theorem trans (h : Delivers s t) (h' : Delivers t u) : Delivers s u where
  frame := h'.frame.trans (by rw [h.frame])
  now := h.now.trans h'.now
  others a ha := (h'.others a (h.addr ▸ ha)).trans (h.others a ha)

end Delivers

/-- The expander takes the byte `b` from the wire, on which `rest` is left, after the time of the step. -/
def State.takeByte (s : State) (b : Byte) (rest : List Byte) : State := (s.pass.setWire rest).expanderWrite b

theorem step_takeByte {s : State} {d : BitVec 4} {blk e rs : Bool} {rest : List Byte}
    (hw : s.wire = expanderByte d blk e rs :: rest) :
    step s = .next (s.takeByte (expanderByte d blk e rs) rest) := by
  rw [step_wire hw, expanderStep_of_decodes (decodeByte_expanderByte d blk e rs)]
  exact exec_byte (encode_of_decodeByte (decodeByte_expanderByte d blk e rs)) _

theorem delivers_takeByte (s : State) (b : Byte) (rest : List Byte) : Delivers s (s.takeByte b rest) where
  frame := rfl
  now := now_le_pass s
  others _ ha := Memory.read_write_other _ b ha

@[simp] theorem takeByte_latch (s : State) (b : Byte) (rest : List Byte) :
    (s.takeByte b rest).mem.read s.addr.toNat = some b := Memory.read_write_same _ _ b

@[simp] theorem outLatch_takeByte (s : State) (b : Byte) (rest : List Byte) : (s.takeByte b rest).outLatch = b :=
  outLatch_expanderWrite _ b

theorem takeByte_pulses (s : State) (b : Byte) (rest : List Byte) : (s.takeByte b rest).pulses =
    if !lineE b && lineE s.outLatch then s.pulses ++ [⟨lineRs b, lineD b⟩] else s.pulses := rfl

/-- An enable pulse on the wire: one step raises the enable line and hands nothing over, the next lowers it and hands the nibble
over (spec R104). -/
theorem pulse_steps {s : State} {d : BitVec 4} {blk rs : Bool} {rest : List Byte}
    (hw : s.wire = expanderByte d blk true rs :: expanderByte d blk false rs :: rest) :
    ∃ t u, step s = .next t ∧ step t = .next u ∧
      t.mem.read s.addr.toNat = some (expanderByte d blk true rs) ∧ t.pulses = s.pulses ∧
      u.mem.read s.addr.toNat = some (expanderByte d blk false rs) ∧ u.pulses = s.pulses ++ [⟨rs, d⟩] ∧
      u.wire = rest ∧ Delivers s u := by
  refine ⟨_, _, step_takeByte hw, step_takeByte rfl, takeByte_latch _ _ _, ?_, takeByte_latch _ _ _, ?_, rfl,
    (delivers_takeByte _ _ _).trans (delivers_takeByte _ _ _)⟩
  · simp [takeByte_pulses]
  · simp [takeByte_pulses]

/-- The state after the step that issues a transaction which the bus takes, `ops` being left of the queue. -/
def State.issued (s : State) (rs : Bool) (v : Byte) (ops : List MicroOp) : State :=
  ((s.pass.setQ ops).transact rs v).issue s.backlightLine (frame rs v s.readBl)

section Transaction

variable {s : State} {rs : Bool} {v : Byte} {ops : List MicroOp}

theorem step_xfer_ok (hw : s.wire = []) (hp : s.phase ≠ .idle) (hq : s.q = .xfer rs v :: ops) (hok : s.nextOutcome = .ok) :
    step s = .next (s.issued rs v ops) := by
  rw [step_queue_cons hw hp hq]
  exact congrArg _ (xfer_ok (s := s.pass.setQ ops) hok)

theorem issued_wire : (s.issued rs v ops).wire =
    [expanderByte (v.extractLsb' 4 4) (lineBlk s.bl) true rs, expanderByte (v.extractLsb' 4 4) (lineBlk s.bl) false rs,
     expanderByte (v.extractLsb' 0 4) (lineBlk s.bl) true rs, expanderByte (v.extractLsb' 0 4) (lineBlk s.bl) false rs] :=
  frame_eq_expanderBytes rs v s

end Transaction

/-- Settles O13: the issuing step, then the pulse of the high nibble and that of the low one (`pulse_steps`). -/
theorem expanderStepsThroughTheFrame : Obligations.ExpanderStepsThroughTheFrame := by
  unfold Obligations.ExpanderStepsThroughTheFrame
  intro s rs v ops hw hp hq hok
  have hissue := step_xfer_ok hw hp hq hok
  obtain ⟨t0, t1, h0, h1, hmem0, hpulses0, hmem1, hpulses1, hwire, hdel⟩ := pulse_steps (issued_wire (s := s) (ops := ops))
  obtain ⟨t2, t3, h2, h3, hmem2, hpulses2, hmem3, hpulses3, -, -⟩ := pulse_steps hwire
  rw [hdel.addr] at hmem2 hmem3
  rw [hpulses1] at hpulses2 hpulses3
  refine ⟨_, _, _, _, frame_eq_expanderBytes rs v s, by simp, by simp, ⟨t0, ?_, hmem0, hpulses0⟩,
    ⟨t1, ?_, hmem1, hpulses1⟩, ⟨t2, ?_, hmem2, hpulses2⟩, ⟨t3, ?_, hmem3, hpulses3.trans (List.append_assoc _ _ _)⟩⟩
  · rw [runs_succ hissue, runs_succ h0, runs_zero]
  · rw [runs_succ hissue, runs_succ h0, runs_succ h1, runs_zero]
  · rw [runs_succ hissue, runs_succ h0, runs_succ h1, runs_succ h2, runs_zero]
  · rw [runs_succ hissue, runs_succ h0, runs_succ h1, runs_succ h2, runs_succ h3, runs_zero]

end Sys2Proof.Machine

/-! ### Queues whose transactions all succeed (spec R100 to R104, R107)

`Performed s ops t` says all that the micro-operations `ops` do; it holds of each alone and of their sequences, and so, by
induction on the queue, of the run (`runs_performed`). -/

namespace Sys2Proof.Machine

theorem successEvents_append (a : Addr) (m : Byte) (ops ops' : List MicroOp) :
    successEvents a m (ops ++ ops') = successEvents a m ops ++ successEvents a (finalBl m ops) ops' := by
  induction ops generalizing m with
  | nil => rfl
  | cons u ops ih => cases u <;> simp [successEvents, finalBl, ih]

theorem finalBl_append (m : Byte) (ops ops' : List MicroOp) : finalBl m (ops ++ ops') = finalBl (finalBl m ops) ops' := by
  induction ops generalizing m with
  | nil => rfl
  | cons u ops ih => cases u <;> simp [finalBl, ih]

/-- The hard-wired bits of `BL` make no difference to what it reads as after a queue (spec R24). -/
theorem finalBl_and_blBits (m : Byte) (ops : List MicroOp) : finalBl m ops &&& blBits = finalBl (m &&& blBits) ops := by
  induction ops generalizing m with
  | nil => rfl
  | cons u ops ih => cases u <;> simp [finalBl, ih]

theorem sentBytes_append (ops ops' : List MicroOp) : sentBytes (ops ++ ops') = sentBytes ops ++ sentBytes ops' := by
  induction ops with
  | nil => rfl
  | cons u ops ih => cases u <;> simp [sentBytes, ih]

theorem xferCount_append (ops ops' : List MicroOp) : xferCount (ops ++ ops') = xferCount ops + xferCount ops' := by
  simp [xferCount, sentBytes_append]

theorem waitTotal_append (ops ops' : List MicroOp) : waitTotal (ops ++ ops') = waitTotal ops + waitTotal ops' := by
  induction ops with
  | nil => simp [waitTotal]
  | cons u ops ih => cases u <;> simp [waitTotal, ih, Nat.add_assoc]

theorem stepCount_append (ops ops' : List MicroOp) : stepCount (ops ++ ops') = stepCount ops + stepCount ops' := by
  induction ops with
  | nil => simp [stepCount]
  | cons u ops ih => cases u <;> simp [stepCount, ih, Nat.add_right_comm]

/-- The controller reads the bytes back from their nibbles. -/
theorem controllerBytes_flatMap_bytePulses (ps : List (Bool × Byte)) : controllerBytes (ps.flatMap bytePulses) = ps := by
  induction ps with
  | nil => rfl
  | cons p ps ih => simp [bytePulses, controllerBytes, nibbles_append, ih]

/-- The expander at an address is known, with its enable and read/write lines low. -/
def State.LatchLow (s : State) (a : Nat) : Prop :=
  ∃ b, s.mem.read a = some b ∧ lineE b = false ∧ lineRw b = false

/-- From `s` the head `ops` of the queue has run, the bus taking every transaction, and `t` is the state then. -/
structure Performed (s : State) (ops : List MicroOp) (t : State) : Prop where
  trace : t.trace = s.trace ++ successEvents s.addr s.readBl ops
  pulses : t.pulses = s.pulses ++ (sentBytes ops).flatMap bytePulses
  now : s.now + waitTotal ops ≤ t.now
  phase : t.phase = s.phase
  q : s.q = ops ++ t.q
  wire : t.wire = []
  cur : t.cur = s.cur
  addr : t.addr = s.addr
  width : t.width = s.width
  bl : t.bl = finalBl s.bl ops
  busIn : t.busIn = s.busIn.drop (xferCount ops)
  offers : t.offers = s.offers
  cfg : t.cfg = s.cfg
  others : ∀ a, a ≠ s.addr.toNat → t.mem.read a = s.mem.read a
  latch : s.LatchLow s.addr.toNat ∨ 0 < xferCount ops → t.LatchLow s.addr.toNat

namespace Performed

variable {s t u : State} {ops ops' : List MicroOp}

theorem readBl (h : Performed s ops t) : t.readBl = finalBl s.readBl ops := by
  simp only [State.readBl, h.bl, finalBl_and_blBits]

theorem nil (hw : s.wire = []) : Performed s [] s where
  trace := by simp [successEvents]
  pulses := by simp [sentBytes]
  now := le_rfl
  phase := rfl
  q := rfl
  wire := hw
  cur := rfl
  addr := rfl
  width := rfl
  bl := rfl
  busIn := rfl
  offers := rfl
  cfg := rfl
  others _ _ := rfl
  latch h := h.resolve_right (by simp [xferCount, sentBytes])

theorem append (h : Performed s ops t) (h' : Performed t ops' u) : Performed s (ops ++ ops') u where
  trace := by simp [h'.trace, h.trace, h.addr, h.readBl, successEvents_append]
  pulses := by simp [h'.pulses, h.pulses, sentBytes_append]
  now := by
    have hfirst := h.now
    have hsecond := h'.now
    rw [waitTotal_append]
    omega
  phase := h'.phase.trans h.phase
  q := by rw [h.q, h'.q, List.append_assoc]
  wire := h'.wire
  cur := h'.cur.trans h.cur
  addr := h'.addr.trans h.addr
  width := h'.width.trans h.width
  bl := by rw [h'.bl, h.bl, finalBl_append]
  busIn := by rw [h'.busIn, h.busIn, List.drop_drop, xferCount_append]
  offers := h'.offers.trans h.offers
  cfg := h'.cfg.trans h.cfg
  others a ha := (h'.others a (h.addr ▸ ha)).trans (h.others a ha)
  latch hlow := by
    have hfirst := h.latch
    have hsecond := h'.latch
    rw [h.addr] at hsecond
    rw [xferCount_append, Nat.add_pos_iff_pos_or_pos, ← or_assoc] at hlow
    exact hsecond (hlow.imp_left hfirst)

/-- `SETBL` (spec R103). -/
theorem setbl {m : Byte} (hw : s.wire = []) (hq : s.q = .setbl m :: ops) :
    Performed s [.setbl m] ((s.pass.setQ ops).setbl m) :=
  { nil hw with
    trace := by simp [successEvents]
    now := now_le_pass s
    q := hq
    wire := hw
    bl := rfl }

/-- `WAIT` (spec R102). -/
theorem wait {d : Nat} (hw : s.wire = []) (hq : s.q = .wait d :: ops) :
    Performed s [.wait d] ((s.pass.setQ ops).wait d) :=
  { nil hw with
    trace := rfl
    now := (Nat.add_le_add_right (now_le_pass s) d).trans (wait_now_ge (s.pass.setQ ops) d)
    q := hq
    wire := hw }

/-- A transaction that a frame of the bytes on the wire completes, from the state that issued it (spec R101, R104). -/
theorem xfer {rs : Bool} {v : Byte} (hq : s.q = .xfer rs v :: ops) (hok : s.nextOutcome = .ok)
    (h : Delivers (s.issued rs v ops) t) (hwire : t.wire = [])
    (hpulses : t.pulses = s.pulses ++ bytePulses (rs, v)) (hlow : t.LatchLow s.addr.toNat) :
    Performed s [.xfer rs v] t where
  trace := by rw [h.frame]; exact congrArg (fun o => s.trace ++ [.x s.addr (frame rs v s.readBl) o]) hok
  pulses := by simpa [sentBytes] using hpulses
  now := (now_le_pass s).trans ((Nat.le_add_right _ _).trans h.now)
  phase := by rw [h.frame]; rfl
  q := by rw [h.frame]; exact hq
  wire := hwire
  cur := by rw [h.frame]; rfl
  addr := h.addr
  width := by rw [h.frame]; rfl
  bl := by rw [h.frame]; rfl
  busIn := by rw [h.frame]; exact List.drop_one.symm
  offers := by rw [h.frame]; rfl
  cfg := by rw [h.frame]; rfl
  others := h.others
  latch _ := hlow

end Performed

/-- A transaction that the bus takes, run to its end: it leaves the last byte of the frame in the latch. -/
theorem runs_xfer_ok {s : State} {rs : Bool} {v : Byte} {ops : List MicroOp} (hw : s.wire = []) (hp : s.phase ≠ .idle)
    (hq : s.q = .xfer rs v :: ops) (hok : s.nextOutcome = .ok) :
    ∃ t, runs 5 s = .next t ∧ Performed s [.xfer rs v] t ∧
      t.mem.read s.addr.toNat = some (expanderByte (v.extractLsb' 0 4) (lineBlk s.bl) false rs) := by
  obtain ⟨t0, t1, h0, h1, -, -, -, hpulses1, hwire1, hdel1⟩ := pulse_steps (issued_wire (s := s) (ops := ops))
  obtain ⟨t2, t3, h2, h3, -, -, hmem3, hpulses3, hwire3, hdel3⟩ := pulse_steps hwire1
  rw [hdel1.addr] at hmem3
  rw [hpulses1] at hpulses3
  refine ⟨t3, ?_, .xfer hq hok (hdel1.trans hdel3) hwire3 (hpulses3.trans (List.append_assoc _ _ _)) ?_, hmem3⟩
  · rw [runs_succ (step_xfer_ok hw hp hq hok), runs_succ h0, runs_succ h1, runs_succ h2, runs_succ h3, runs_zero]
  · exact ⟨_, hmem3, lineE_expanderByte _ _ _ _, lineRw_expanderByte _ _ _ _⟩

/-- Settles O12: the run of the transaction (`runs_xfer_ok`), and the fields of a frame's last byte. -/
theorem successfulTransactionHandsOverOneByte : Obligations.SuccessfulTransactionHandsOverOneByte := by
  unfold Obligations.SuccessfulTransactionHandsOverOneByte
  intro s rs v ops hw hp hq hok
  obtain ⟨t, hruns, h, hmem⟩ := runs_xfer_ok hw hp hq hok
  have htail : ops = t.q := (List.cons.inj (hq.symm.trans h.q)).2
  have hlast : (frame rs v s.readBl).getLast? =
      some (expanderByte (v.extractLsb' 0 4) (lineBlk s.bl) false rs) := by rw [frame_eq_expanderBytes]; rfl
  exact ⟨t, hruns, h.trace, h.pulses, ⟨_, hlast, hmem, lineE_expanderByte _ _ _ _, lineBlk_expanderByte _ _ _ _⟩,
    h.others, htail.symm, h.wire, h.phase, h.cur, h.offers, h.cfg, h.busIn.trans List.drop_one,
    ⟨h.addr, h.bl, h.width⟩, h.now⟩

/-- One micro-operation, run to its end. -/
theorem runs_microOp {s : State} {u : MicroOp} {ops : List MicroOp} {more : List BusOutcome} (hw : s.wire = [])
    (hp : s.phase ≠ .idle) (hq : s.q = u :: ops) (hbus : s.busIn = List.replicate (xferCount [u]) .ok ++ more) :
    ∃ t, runs (stepCount [u]) s = .next t ∧ Performed s [u] t := by
  cases u with
  | setbl m => exact ⟨_, runs_succ (step_queue_cons hw hp hq), .setbl hw hq⟩
  | wait d => exact ⟨_, runs_succ (step_queue_cons hw hp hq), .wait hw hq⟩
  | xfer rs v =>
    obtain ⟨t, hruns, h, _⟩ := runs_xfer_ok hw hp hq (nextOutcome_cons hbus (admits_ok s.cfg))
    exact ⟨t, hruns, h⟩

/-- The head `ops` of the queue, run to its end. -/
theorem runs_performed {s : State} {ops rest : List MicroOp} {more : List BusOutcome} (hw : s.wire = [])
    (hp : s.phase ≠ .idle) (hq : s.q = ops ++ rest) (hbus : s.busIn = List.replicate (xferCount ops) .ok ++ more) :
    ∃ t, runs (stepCount ops) s = .next t ∧ Performed s ops t := by
  induction ops generalizing s with
  | nil => exact ⟨s, rfl, .nil hw⟩
  | cons u ops ih =>
    rw [← List.singleton_append, xferCount_append, List.replicate_add, List.append_assoc] at hbus
    obtain ⟨t, hruns, h⟩ := runs_microOp hw hp hq hbus
    have hrest : t.q = ops ++ rest := (List.cons.inj (h.q.symm.trans hq)).2
    have hbusIn : t.busIn = List.replicate (xferCount ops) .ok ++ more := by
      rw [h.busIn, hbus, List.drop_left' (List.length_replicate ..)]
    obtain ⟨u', hruns', h'⟩ := ih h.wire (h.phase ▸ hp) hrest hbusIn
    refine ⟨u', ?_, h.append h'⟩
    rw [← List.singleton_append, stepCount_append, runs_add hruns, hruns']

/-- The whole queue, run to the response `OK`. -/
theorem runs_response {s : State} {more : List BusOutcome} (hw : s.wire = []) (hp : s.phase ≠ .idle)
    (hbus : s.busIn = List.replicate (xferCount s.q) .ok ++ more) :
    ∃ u, Performed s s.q u ∧ u.q = [] ∧ runs (stepCount s.q + 1) s = .next (u.pass.done .ok) := by
  obtain ⟨u, hruns, h⟩ := runs_performed hw hp (List.append_nil s.q).symm hbus
  have hq : u.q = [] := List.self_eq_append_right.1 h.q
  exact ⟨u, h, hq, by rw [runs_add hruns, runs_succ (step_queue_nil h.wire (h.phase ▸ hp) hq), runs_zero]⟩

/-- Settles O33: the queue has been performed when the step of the response is taken (`runs_response`). -/
theorem successfulQueueRunsToItsResponse : Obligations.SuccessfulQueueRunsToItsResponse := by
  unfold Obligations.SuccessfulQueueRunsToItsResponse
  intro s more hw hp hbus
  obtain ⟨u, h, hq, hruns⟩ := runs_response hw hp hbus
  refine ⟨_, hruns, congrArg (· ++ [_]) h.trace, ?_, ?_, h.now.trans (now_le_pass u), rfl, hq, h.wire, rfl, h.addr,
    h.width, h.bl, ?_, h.offers, h.cfg, h.others, fun hpos => h.latch (.inr hpos)⟩
  · simp [h.pulses, controllerBytes_flatMap_bytePulses]
  · simp [h.pulses]
  · simp [h.busIn, hbus]

end Sys2Proof.Machine

/-! ### Requests, run from the offer to the answer (spec R105 to R107) -/

namespace Sys2Proof.Machine

/-- The request that encodes `i`, offered to an idle block, is taken and has the meaning of `i`. -/
theorem step_offered {s : State} {i : Instr} {oks : Nat} (h : s.offered i oks) :
    step s = exec i (s.pass.setOffers s.offers.tail) := by
  obtain ⟨hp, hw, ⟨r, rest, henc, ho⟩, _⟩ := h
  have hd : decodeRequest r = .ok i := by simpa [henc, decode] using decode_encode i
  rw [step_idle_cons hw hp ho, takeRequest_of_decodes hd, ho, List.tail_cons]

theorem isRequest_of_offered {s : State} {i : Instr} {oks : Nat} (h : s.offered i oks) : i.isRequest = true := by
  obtain ⟨_, _, ⟨r, _, henc, _⟩, _⟩ := h
  exact isRequest_of_decodeRequest (r := r) (by simpa [henc, decode] using decode_encode i)

/-- A request that is offered and accepted, in the state `a`, with a bus that takes its transactions, is answered `OK` after the
events and the waits of its expansion; `u` is the state in which all but the response is done. -/
theorem answered_of_accepted {s a : State} {i : Instr} (h : s.offered i (xferCount a.q))
    (he : exec i (s.pass.setOffers s.offers.tail) = .next a) (hbusy : a.phase = .busy) :
    ∃ u, Performed a a.q u ∧
      s.answered (u.pass.done .ok) (successEvents a.addr a.readBl a.q) .ok (waitTotal a.q) := by
  have hstep : step s = .next a := (step_offered h).trans he
  have hframe := requestFrame i _ a (isRequest_of_offered h) he
  obtain ⟨hp, hw, _, more, hbus⟩ := h
  obtain ⟨_, hwire, _, _, hnow, hoffers, hbusIn, hcfg, _, _, _, hcase⟩ := hframe
  have htrace : a.trace = s.trace := by
    obtain ⟨_, _, htrace⟩ | ⟨hphase, _⟩ := hcase
    · exact htrace
    · exact absurd (hbusy.symm.trans (hphase.trans hp)) (by simp)
  obtain ⟨u, hu, hq, hruns⟩ := runs_response (hwire.trans hw) (by simp [hbusy]) (hbusIn.trans hbus)
  refine ⟨u, hu, ⟨_, (runs_succ hstep).trans hruns⟩, ?_, ?_, rfl, hq, hu.wire, rfl, hu.offers.trans hoffers,
    hu.cfg.trans hcfg⟩
  · exact htrace ▸ congrArg (· ++ [_]) hu.trace
  · have hpass : s.now ≤ a.now := hnow ▸ now_le_pass s
    exact (Nat.add_le_add_right hpass _).trans (hu.now.trans (now_le_pass u))

/-- One byte, sent by a request that its acceptance does not make write a register. -/
theorem answered_send {s : State} {i : Instr} {rs : Bool} {v : Byte} (h : s.offered i 1)
    (he : ∀ s : State, exec i s = .next (s.accept i (send rs v))) :
    ∃ t, s.answered t [.x s.addr (frame rs v s.readBl) .ok, .w 2000] .ok 2000 ∧ s.sameRegisters t := by
  obtain ⟨u, hu, hanswered⟩ := answered_of_accepted h (he _) rfl
  exact ⟨_, hanswered, hu.addr, hu.bl, hu.width⟩

/-- Settles O36: both requests send one byte (`answered_send`). -/
theorem primitiveRequestsSendOneFrame : Obligations.PrimitiveRequestsSendOneFrame := by
  unfold Obligations.PrimitiveRequestsSendOneFrame
  exact fun s v => ⟨fun h => answered_send h fun _ => rfl, fun h => answered_send h fun _ => rfl⟩

end Sys2Proof.Machine

/-! ### `init`, `cursor`, `write`, `clear` and `backlight` are accepted (spec R120 to R125, R203) -/

namespace Sys2Proof.Machine

/-- A width of 1..255 is accepted, after the prologue's register writes (spec R120). -/
theorem exec_init_of_width_ne_zero {w : Byte} (hw : w ≠ 0) (a : Addr) (f : Bool) (s : State) :
    exec (.init a f w) s =
      .next ((((s.writeAddr a).writeWidth w).writeBl (pInitBl s.cfg f)).accept (.init a f w) (initBody f)) := by
  simp only [exec, execInit, if_neg hw]

/-- Settles O21: a non-zero width is accepted (`exec_init_of_width_ne_zero`), with a mask that the hard-wired bits of `BL` keep;
the width 0 makes an ill-formed `init` (`exec_of_not_wellFormed`). -/
theorem initIsAcceptedUnlessTheWidthIsZero : Obligations.InitIsAcceptedUnlessTheWidthIsZero := by
  unfold Obligations.InitIsAcceptedUnlessTheWidthIsZero
  intro a f w s
  refine ⟨fun hw => ?_, exec_of_not_wellFormed rfl s, fun c => ⟨rfl, rfl⟩, ?_⟩
  · rw [exec_init_of_width_ne_zero hw, State.writeBl, pInitBl_and_blBits]
    rfl
  · cases f <;> rfl

/-- Settles O22: the meaning of each of the four is the acceptance of its expansion. -/
theorem displayRequestsAreAccepted : Obligations.DisplayRequestsAreAccepted := by
  unfold Obligations.DisplayRequestsAreAccepted
  exact fun text line pos on s => ⟨rfl, rfl, rfl, rfl⟩

end Sys2Proof.Machine

/-! ### `cursor` and `write`, run to the end (spec R108, R122, R123, R254)

What the queue of a text records, waits and hands over follows byte by byte from what one `SEND` does. -/

namespace Sys2Proof.Machine

theorem sendText_cons (v : Byte) (text : List Byte) : sendText (v :: text) = send true v ++ sendText text := rfl

@[simp] theorem successEvents_send (a : Addr) (m : Byte) (rs : Bool) (v : Byte) :
    successEvents a m (send rs v) = sendEvents a m rs v := rfl

@[simp] theorem finalBl_send (m : Byte) (rs : Bool) (v : Byte) : finalBl m (send rs v) = m := rfl

@[simp] theorem sentBytes_send (rs : Bool) (v : Byte) : sentBytes (send rs v) = [(rs, v)] := rfl

@[simp] theorem waitTotal_send (rs : Bool) (v : Byte) : waitTotal (send rs v) = 2000 := rfl

theorem successEvents_sendText (a : Addr) (m : Byte) (text : List Byte) :
    successEvents a m (sendText text) = text.flatMap (sendEvents a m true) := by
  induction text with
  | nil => rfl
  | cons v text ih => rw [sendText_cons, successEvents_append, finalBl_send, ih]; rfl

theorem finalBl_sendText (m : Byte) (text : List Byte) : finalBl m (sendText text) = m := by
  induction text with
  | nil => rfl
  | cons v text ih => rw [sendText_cons, finalBl_append, finalBl_send, ih]

theorem sentBytes_sendText (text : List Byte) : sentBytes (sendText text) = text.map fun v => (true, v) := by
  induction text with
  | nil => rfl
  | cons v text ih => rw [sendText_cons, sentBytes_append, ih]; rfl

theorem waitTotal_sendText (text : List Byte) : waitTotal (sendText text) = text.length * 2000 := by
  induction text with
  | nil => rfl
  | cons v text ih => rw [sendText_cons, waitTotal_append, waitTotal_send, ih, List.length_cons]; omega

section WriteOps

variable (text : List Byte) (line pos : Byte)

@[simp] theorem successEvents_writeOps (a : Addr) (m : Byte) :
    successEvents a m (writeOps text line pos) = writeEvents a m text line pos := by
  rw [writeOps, successEvents_append, finalBl_send, successEvents_sendText]; rfl

@[simp] theorem finalBl_writeOps (m : Byte) : finalBl m (writeOps text line pos) = m := by
  rw [writeOps, finalBl_append, finalBl_send, finalBl_sendText]

@[simp] theorem sentBytes_writeOps :
    sentBytes (writeOps text line pos) = (false, ddCommand line pos) :: text.map fun v => (true, v) := by
  rw [writeOps, sentBytes_append, sentBytes_sendText]; rfl

@[simp] theorem xferCount_writeOps : xferCount (writeOps text line pos) = text.length + 1 := by
  simp [xferCount]

@[simp] theorem waitTotal_writeOps : waitTotal (writeOps text line pos) = (text.length + 1) * 2000 := by
  rw [writeOps, waitTotal_append, waitTotal_send, waitTotal_sendText]; omega

end WriteOps

/-- The controller reads back from the nibbles of a performed queue the bytes that the queue sends (spec R104). -/
theorem Performed.controllerBytes {s t : State} {ops : List MicroOp} (h : Performed s ops t) :
    controllerBytes (t.pulses.drop s.pulses.length) = sentBytes ops := by
  rw [h.pulses, List.drop_left, controllerBytes_flatMap_bytePulses]

/-- Settles O38: `cursor` sends one byte (`answered_send`); `write` is accepted with the queue `writeOps`, which the bus takes to
its end (`answered_of_accepted`). -/
theorem cursorAndWriteSendTheirBytesInOrder : Obligations.CursorAndWriteSendTheirBytesInOrder := by
  unfold Obligations.CursorAndWriteSendTheirBytesInOrder
  refine fun s text line pos => ⟨fun h => answered_send h fun _ => rfl, fun h => ?_⟩
  rw [← xferCount_writeOps text line pos] at h
  obtain ⟨u, hu, hanswered⟩ := answered_of_accepted h
    (a := (s.pass.setOffers s.offers.tail).accept (.write text line pos) (writeOps text line pos)) rfl rfl
  rw [State.accept_q, successEvents_writeOps, waitTotal_writeOps] at hanswered
  exact ⟨_, hanswered, ⟨hu.addr, hu.bl.trans (finalBl_writeOps text line pos s.bl), hu.width⟩,
    hu.controllerBytes.trans (sentBytes_writeOps text line pos)⟩

end Sys2Proof.Machine

/-! ### `backlight`, run to the end (spec R125, R126, R206)

The step that takes `backlight` and the `SETBL` after it lead to `State.backlightSet`, whether its transaction then succeeds or
not. From there on the backlight line is released when the wire is empty (`State.LineReleased`). -/

namespace Sys2Proof.Machine

/-- With nothing on the wire, the backlight line is not held (spec R252, log 25). -/
def State.LineReleased (s : State) : Prop := s.wire = [] → s.lineHeld = none

/-- Only a transaction that is issued holds the line, and taking its last byte releases it. -/
theorem step_lineReleased {s t : State} (h : step s = .next t) (hs : s.LineReleased) : t.LineReleased := by
  obtain ⟨b, rest, _, _, rfl⟩ | ⟨_, _, u, ops, _, rfl⟩ | ⟨_, _, _, rfl⟩ | ⟨_, _, _, rfl⟩ |
    ⟨_, _, r, rest, _, ⟨_, rfl⟩ | ⟨i, hd, hexec⟩⟩ := step_cases h
  · exact fun hnil => if_pos hnil
  · cases u with
    | setbl m | wait d => exact fun hnil => hs hnil
    | xfer rs v =>
      obtain ⟨_, hx⟩ | ⟨k, _, hx⟩ := xfer_cases (s.pass.setQ ops) rs v <;> rw [State.runMicro, hx]
      · exact fun hnil => absurd (congrArg List.length hnil) (by simp)
      · simpa [State.LineReleased] using hs
  · exact fun hnil => hs hnil
  · exact fun hnil => hs hnil
  · exact fun hnil => hs hnil
  · obtain ⟨_, hwire, hheld, _⟩ := requestFrame i _ t (isRequest_of_decodeRequest hd) hexec
    exact fun hnil => hheld.trans (hs (hwire.symm.trans hnil))

theorem runs_lineReleased {n : Nat} {s t : State} (h : runs n s = .next t) (hs : s.LineReleased) : t.LineReleased := by
  induction n generalizing s with
  | zero => exact Host.Outcome.next.inj h ▸ hs
  | succ n ih =>
    obtain ⟨s', hstep, hrest⟩ := step_of_runs_succ h
    exact ih hrest (step_lineReleased hstep hs)

/-- The state in which `backlight`, taken in `s`, has written `BL` and has its frame yet to send. -/
def State.backlightSet (s : State) (on : Bool) : State :=
  (((s.pass.setOffers s.offers.tail).accept (.backlight on) (backlightOps on)).pass.setQ (send false 0x00#8)).setbl
    (blMask on)

section Backlight

variable {s : State} {on : Bool} {oks : Nat}

theorem runs_backlightSet (h : s.offered (.backlight on) oks) : runs 2 s = .next (s.backlightSet on) := by
  have htake : step s = .next ((s.pass.setOffers s.offers.tail).accept (.backlight on) (backlightOps on)) := step_offered h
  have hset := step_queue_cons (s := (s.pass.setOffers s.offers.tail).accept (.backlight on) (backlightOps on)) h.2.1
    (by simp) rfl
  rw [runs_succ htake, runs_succ hset, runs_zero]
  rfl

theorem backlightSet_wire (h : s.offered (.backlight on) oks) : (s.backlightSet on).wire = [] := h.2.1

theorem backlightSet_phase : (s.backlightSet on).phase ≠ .idle := nofun

theorem backlightSet_bl : (s.backlightSet on).bl = blMask on := blMask_and_blBits on

theorem backlightSet_readBl : (s.backlightSet on).readBl = blMask on := by
  rw [State.readBl, backlightSet_bl, blMask_and_blBits]

end Backlight

theorem extends_backlightSet (s : State) (on : Bool) : Extends s (s.backlightSet on) :=
  ((((((Extends.refl s).pass).setOffers _).accept _ _).pass).setQ _).writeBl _

theorem lineBlk_blMask (f : Bool) : lineBlk (blMask f) = f := by
  cases f <;> decide

/-- The frame of `backlight` carries the backlight line that was asked for (spec R126). -/
theorem lineBlk_of_mem_backlight_frame (on : Bool) : ∀ x ∈ frame false 0x00#8 (blMask on), lineBlk x = on := by
  cases on <;> decide

section Answers

variable {s : State} {on : Bool} {oks : Nat}

/-- With a bus that takes its transaction, `backlight` is answered `OK`, in the state in which its queue has been performed; the
latch then holds the last byte of the frame, and the line shows it. -/
theorem answered_backlight_ok (h : s.offered (.backlight on) 1) :
    ∃ u, s.answered (u.pass.done .ok) (sendEvents s.addr (blMask on) false 0x00#8) .ok 2000 ∧
      Performed (s.backlightSet on) (send false 0x00#8) u ∧
      u.mem.read s.addr.toNat = some (expanderByte 0#4 on false false) ∧ u.lineHeld = none := by
  have hset : runs 2 s = .next (s.backlightSet on) := runs_backlightSet h
  have hwire : (s.backlightSet on).wire = [] := backlightSet_wire h
  obtain ⟨_, _, _, more, hbus⟩ := h
  have hok : (s.backlightSet on).nextOutcome = .ok := nextOutcome_cons (rest := more) hbus rfl
  obtain ⟨t, hxfer, ht, hlatch⟩ := runs_xfer_ok hwire backlightSet_phase rfl hok
  have hq : t.q = [.wait tCmdUs] := (List.cons.inj ht.q).2.symm
  have hbusy : t.phase ≠ .idle := ht.phase ▸ backlightSet_phase
  have hheld : t.lineHeld = none := by
    rw [runs_succ (step_xfer_ok hwire backlightSet_phase rfl hok)] at hxfer
    exact runs_lineReleased hxfer (fun hnil => by simp [issued_wire] at hnil) ht.wire
  have hu := ht.append (.wait ht.wire hq)
  refine ⟨(t.pass.setQ []).wait tCmdUs, ⟨⟨2 + (5 + 2), ?_⟩, ?_, ?_, rfl, rfl, hu.wire, rfl, hu.offers, hu.cfg⟩, hu, ?_,
    hheld⟩
  · rw [runs_add hset, runs_add hxfer, runs_succ (step_queue_cons ht.wire hbusy hq)]
    exact runs_succ (n := 0) (step_queue_nil ht.wire hbusy rfl)
  · exact congrArg (· ++ [_]) (hu.trace.trans (by rw [backlightSet_readBl]; rfl))
  · exact (Nat.add_le_add_right (extends_backlightSet s on).now _).trans (hu.now.trans (now_le_pass _))
  · rw [backlightSet_bl, lineBlk_blMask] at hlatch
    exact hlatch

/-- When the bus fails its transaction, `backlight` is answered with the kind of the failure, and the registers keep what was
written (spec R205, R206). -/
theorem answered_backlight_err {k : BusErrorKind} {more : List BusOutcome} (h : s.offered (.backlight on) oks)
    (hk : admits s.cfg (.err k) = true) (hbus : s.busIn = .err k :: more) :
    ∃ t, s.answered t [.x s.addr (frame false 0x00#8 (blMask on)) (.err k)] (.eBus k) 0 ∧
      (s.backlightSet on).sameRegisters t := by
  have hwire : (s.backlightSet on).wire = [] := backlightSet_wire h
  have herr : (s.backlightSet on).nextOutcome = .err k := nextOutcome_cons (rest := more) hbus hk
  have hstep := step_queue_cons (s := s.backlightSet on) hwire backlightSet_phase rfl
  rw [State.runMicro, xfer_err (s := (s.backlightSet on).pass.setQ _) herr] at hstep
  have hruns := (runs_add (runs_backlightSet h)).trans (runs_succ (n := 0) hstep)
  obtain ⟨_, _, hnow, hcfg⟩ := step_extends hstep
  obtain ⟨_, _, hnow', hcfg'⟩ := extends_backlightSet s on
  refine ⟨_, ⟨⟨_, hruns⟩, ?_, hnow'.trans hnow, rfl, rfl, hwire, rfl, rfl, hcfg.trans hcfg'⟩, rfl, rfl, rfl⟩
  show s.trace ++ [.x s.addr (frame false 0x00#8 (s.backlightSet on).readBl) (s.backlightSet on).nextOutcome] ++ [_] = _
  rw [backlightSet_readBl, herr]

end Answers

/-- Settles O40: the two answers of `backlight` (`answered_backlight_ok`, `answered_backlight_err`). -/
theorem backlightReachesTheExpander : Obligations.BacklightReachesTheExpander := by
  unfold Obligations.BacklightReachesTheExpander
  intro s on
  refine ⟨fun h => ?_, fun k more h hk hbus => ?_⟩
  · obtain ⟨u, hanswered, hu, hlatch, hheld⟩ := answered_backlight_ok h
    have hbl : u.bl = blMask on := hu.bl.trans backlightSet_bl
    refine ⟨_, _, hanswered, hu.addr, hu.width, hbl, lineBlk_of_mem_backlight_frame on, hlatch,
      lineBlk_expanderByte _ _ _ _, ?_⟩
    have hread : u.mem.read u.addr.toNat = some (expanderByte 0#4 on false false) := by rw [hu.addr]; exact hlatch
    have hcfg : (u.pass.done .ok).cfg = s.cfg := hu.cfg
    have hlit := backlightLit_of_read (s := u.pass.done .ok) hheld hread
    rw [lineBlk_expanderByte, hcfg] at hlit
    exact hlit
  · obtain ⟨t, hanswered, haddr, hbl, hwidth⟩ := answered_backlight_err h hk hbus
    exact ⟨t, hanswered, haddr, hwidth, hbl.trans backlightSet_bl⟩

end Sys2Proof.Machine

/-! ### The windows of the horizontal scrolls (spec R9, R140 to R142) -/

namespace Sys2Proof.Machine

theorem slice_add_eq (s : List Byte) (i w : Nat) : slice s i (i + w) = (s.drop i).take w := by
  rw [slice, List.drop_take, Nat.add_sub_cancel_left]

theorem length_slice_add {s : List Byte} {i w : Nat} (h : i + w ≤ s.length) : (slice s i (i + w)).length = w := by
  rw [slice_add_eq, List.length_take, List.length_drop]
  omega

/-- A slice read backwards is the slice of the reversed sequence between the mirrored bounds. -/
theorem reverse_slice {s : List Byte} {j : Nat} (i : Nat) (h : j ≤ s.length) :
    (slice s i j).reverse = slice s.reverse (s.length - j) (s.length - i) := by
  have hlen : s.length - i - (s.length - j) = j - i := by omega
  rw [slice, slice, List.reverse_drop, List.reverse_take, List.drop_take, List.length_take, Nat.min_eq_left h, hlen]

section Windows

variable (c : Config) (w : Nat) (text : List Byte)

@[simp] theorem length_spaces : (spaces c w).length = w := List.length_replicate ..

@[simp] theorem reverse_spaces : (spaces c w).reverse = spaces c w := List.reverse_replicate ..

@[simp] theorem length_leftWindows : (leftWindows c w text).length = text.length + 1 := by simp [leftWindows]

@[simp] theorem length_rightWindows : (rightWindows c w text).length = text.length + 1 := by simp [rightWindows]

variable {c w text}

theorem getElem?_leftWindows {i : Nat} (hi : i ≤ text.length) :
    (leftWindows c w text)[i]? = some (((text ++ spaces c w).drop i).take w) := by
  rw [leftWindows, List.getElem?_map, List.getElem?_range (Nat.lt_succ_of_le hi), Option.map_some, slice_add_eq]

theorem length_of_mem_leftWindows {win : List Byte} (h : win ∈ leftWindows c w text) : win.length = w := by
  obtain ⟨i, hi, rfl⟩ := List.mem_map.1 h
  have hi' : i < text.length + 1 := List.mem_range.1 hi
  refine length_slice_add ?_
  rw [List.length_append, length_spaces]
  omega

variable (c w text)

/-- Reversed, the padded reversed text of the left scroll is the padded text of the right scroll, and so are their slices
(`reverse_slice`). -/
theorem rightWindows_eq_mirror : rightWindows c w text = (leftWindows c w text.reverse).map List.reverse := by
  rw [rightWindows, leftWindows, List.map_map, List.length_reverse]
  refine List.map_congr_left fun i hi => ?_
  have hi' : i < text.length + 1 := List.mem_range.1 hi
  have hlen : (text.reverse ++ spaces c w).length = text.length + w := by simp
  have hlow : text.length + w - (i + w) = text.length - i := by omega
  have hhigh : text.length + w - i = text.length - i + w := by omega
  rw [Function.comp_apply, reverse_slice i (by omega), hlen, hlow, hhigh, List.reverse_append, reverse_spaces,
    List.reverse_reverse]

variable {c w text}

theorem length_of_mem_rightWindows {win : List Byte} (h : win ∈ rightWindows c w text) : win.length = w := by
  rw [rightWindows_eq_mirror] at h
  obtain ⟨win', h', rfl⟩ := List.mem_map.1 h
  rw [List.length_reverse, length_of_mem_leftWindows h']

end Windows

/-- Settles O45: window i is the width's first bytes of the padded text from i on (`getElem?_leftWindows`), of which the last
begins where the text has ended. -/
theorem leftScrollWindowsSlideOffTheLeft : Obligations.LeftScrollWindowsSlideOffTheLeft := by
  unfold Obligations.LeftScrollWindowsSlideOffTheLeft
  refine fun c w text => ⟨length_leftWindows c w text, fun win => length_of_mem_leftWindows, ?_,
    fun i hi => ⟨_, getElem?_leftWindows hi, fun j hj => ?_⟩⟩
  · rw [List.getLast?_eq_getElem?, length_leftWindows, Nat.add_sub_cancel, getElem?_leftWindows le_rfl, List.drop_left,
      List.take_of_length_le (length_spaces c w).le, spaces]
  · rw [List.getElem?_take_of_lt hj, List.getElem?_drop]
    by_cases hin : i + j < text.length
    · rw [List.getElem?_append_left hin, List.getElem?_eq_getElem hin, Option.getD_some]
    · rw [List.getElem?_append_right (not_lt.1 hin), List.getElem?_eq_none (not_lt.1 hin), Option.getD_none, spaces,
        List.getElem?_replicate_of_lt (by omega)]

/-- Settles O46: `rightWindows_eq_mirror`, and the length of the windows. -/
theorem rightScrollMirrorsLeftScroll : Obligations.RightScrollMirrorsLeftScroll := by
  unfold Obligations.RightScrollMirrorsLeftScroll
  exact fun c w text => ⟨rightWindows_eq_mirror c w text, fun win => length_of_mem_rightWindows⟩

end Sys2Proof.Machine

/-! ### The chunks and lines of the vertical scroll (spec R143, R144) -/

namespace Sys2Proof.Machine

/-- Chunk `j` is one of the chunks just when the text has a byte for it. -/
theorem lt_chunkCount_iff {w : Nat} (hw : 0 < w) (n j : Nat) : j < chunkCount w n ↔ j * w < n := by
  rw [chunkCount, ← Nat.succ_le_iff, Nat.le_div_iff_mul_le hw, Nat.succ_mul]
  omega

@[simp] theorem length_chunks (w : Nat) (text : List Byte) : (chunks w text).length = chunkCount w text.length := by
  simp [chunks]

theorem getElem?_chunks {w : Nat} {text : List Byte} {j : Nat} (hj : j < chunkCount w text.length) :
    (chunks w text)[j]? = some ((text.drop (j * w)).take w) := by
  rw [chunks, List.getElem?_map, List.getElem?_range hj, Option.map_some, slice_add_eq]

theorem exists_of_mem_chunks {w : Nat} {text ch : List Byte} (h : ch ∈ chunks w text) :
    ∃ j, j < chunkCount w text.length ∧ ch = (text.drop (j * w)).take w := by
  obtain ⟨j, hj, rfl⟩ := List.mem_map.1 h
  exact ⟨j, List.mem_range.1 hj, slice_add_eq text (j * w) w⟩

/-- The first `k` pieces of the width `w`, joined, are the first `k * w` bytes. -/
theorem flatten_range_slices (w k : Nat) (text : List Byte) :
    ((List.range k).map fun j => slice text (j * w) (j * w + w)).flatten = text.take (k * w) := by
  induction k with
  | zero => simp
  | succ k ih =>
    rw [List.range_succ, List.map_append, List.flatten_append, ih, Nat.succ_mul, List.take_add]
    simp [slice_add_eq]

theorem flatten_chunks {w : Nat} (hw : 0 < w) (text : List Byte) : (chunks w text).flatten = text := by
  rw [chunks, flatten_range_slices]
  exact List.take_of_length_le (not_lt.1 ((lt_chunkCount_iff hw _ _).not.1 (lt_irrefl _)))

theorem length_of_mem_chunks {w : Nat} (hw : 0 < w) {text ch : List Byte} (h : ch ∈ chunks w text) :
    0 < ch.length ∧ ch.length ≤ w := by
  obtain ⟨j, hj, rfl⟩ := exists_of_mem_chunks h
  have hstart := (lt_chunkCount_iff hw _ _).1 hj
  rw [List.length_take, List.length_drop]
  omega

/-- A chunk that another follows is full. -/
theorem length_of_mem_dropLast_chunks {w : Nat} (hw : 0 < w) {text ch : List Byte} (h : ch ∈ (chunks w text).dropLast) :
    ch.length = w := by
  obtain ⟨j, hj, rfl⟩ := List.mem_iff_getElem.1 h
  rw [List.length_dropLast, length_chunks] at hj
  have hnext := (lt_chunkCount_iff hw text.length (j + 1)).1 (by omega)
  rw [Nat.succ_mul] at hnext
  simp only [chunks, List.getElem_dropLast, List.getElem_map, List.getElem_range]
  exact length_slice_add hnext.le

/-- Changing the last element, if there is one, is modifying the element at the last place. -/
theorem dropLast_append_getLast?_map {α : Type} (f : α → α) (l : List α) :
    l.dropLast ++ l.getLast?.toList.map f = l.modify (l.length - 1) f := by
  induction l using List.reverseRecOn with
  | nil => rfl
  | append_singleton init last _ =>
    rw [List.dropLast_concat, List.getLast?_concat, List.length_append, List.length_singleton, Nat.add_sub_cancel]
    exact (List.modifyTailIdx_add (List.modifyHead f) 0 init [last]).symm

section Lines

variable (c : Config) (w : Nat) (text : List Byte)

/-- The chunks as lines: only the last of them is changed, by the padding that `P_VPAD` asks for. -/
theorem paddedChunks_eq_modify : paddedChunks c w text =
    (chunks w text).modify (chunkCount w text.length - 1) fun ch =>
      match c.vpad with
      | .none => ch
      | .spaces => ch ++ spaces c (w - ch.length) := by
  unfold paddedChunks
  cases c.vpad with
  | none => exact (List.modify_id _ _).symm
  | spaces => rw [← length_chunks]; exact dropLast_append_getLast?_map _ _

@[simp] theorem length_paddedChunks : (paddedChunks c w text).length = chunkCount w text.length := by
  rw [paddedChunks_eq_modify, List.length_modify, length_chunks]

/-- The bracketed list has one adjacent pair more than there are chunks (spec R144). -/
theorem length_verticalLines_pairs : ((verticalLines c w text).zip (verticalLines c w text).tail).length =
    chunkCount w text.length + 1 := by
  simp [verticalLines]

variable {w text}

theorem getElem?_paddedChunks {j : Nat} (hj : j < chunkCount w text.length) : (paddedChunks c w text)[j]? =
    some (match c.vpad with
      | .none => (text.drop (j * w)).take w
      | .spaces => if j + 1 = chunkCount w text.length then
          (text.drop (j * w)).take w ++ spaces c (w - ((text.drop (j * w)).take w).length)
        else (text.drop (j * w)).take w) := by
  have hlast : chunkCount w text.length - 1 = j ↔ j + 1 = chunkCount w text.length := by omega
  rw [paddedChunks_eq_modify, List.getElem?_modify, getElem?_chunks hj]
  cases c.vpad <;> simp [hlast]

end Lines

/-- Settles O47: the chunks by `lt_chunkCount_iff`, the lines between the blank ones by `getElem?_paddedChunks`. -/
theorem verticalChunksPartitionTheText : Obligations.VerticalChunksPartitionTheText := by
  unfold Obligations.VerticalChunksPartitionTheText
  exact fun c w text hw => ⟨flatten_chunks hw text, length_chunks w text, fun ch => length_of_mem_chunks hw,
    fun ch => length_of_mem_dropLast_chunks hw, length_verticalLines_pairs c w text, paddedChunks c w text, rfl,
    length_paddedChunks c w text, fun j hj => ⟨_, getElem?_chunks hj, rfl, getElem?_paddedChunks c hj⟩⟩

end Sys2Proof.Machine

/-! ### What the queues of the scrolls count and record (spec R140 to R144, R254)

A scroll's queue is a sequence of bodies, each of them writes and a wait: what it counts is the sum over the bodies, and what
it records is what they record, since no body has a `SETBL` (`PrimitiveSeq`). -/

namespace Sys2Proof.Machine

section Sequences

variable {α : Type} (f : α → List MicroOp) (xs : List α)

theorem xferCount_flatMap : xferCount (xs.flatMap f) = (xs.map fun x => xferCount (f x)).sum := by
  induction xs with
  | nil => rfl
  | cons x xs ih => rw [List.flatMap_cons, xferCount_append, ih, List.map_cons, List.sum_cons]

variable {f}

/-- A sequence of bodies, each of which waits 2 ms for a transaction and then `d`. -/
theorem waitTotal_flatMap {d : Nat} (h : ∀ x, waitTotal (f x) = xferCount (f x) * 2000 + d) :
    waitTotal (xs.flatMap f) = xferCount (xs.flatMap f) * 2000 + xs.length * d := by
  induction xs with
  | nil => simp [waitTotal, xferCount, sentBytes]
  | cons x xs ih =>
    rw [List.flatMap_cons, waitTotal_append, xferCount_append, ih, h, List.length_cons, Nat.succ_mul]
    omega

theorem PrimitiveSeq.finalBl_eq {ops : List MicroOp} (h : PrimitiveSeq ops) (m : Byte) : finalBl m ops = m := by
  have hnot := setbl_not_mem_of_primitiveSeq h
  clear h
  induction ops with
  | nil => rfl
  | cons u ops ih =>
    have htail : ∀ m, .setbl m ∉ ops := fun m hm => hnot m (.tail _ hm)
    cases u with
    | setbl m' => exact absurd (.head _) (hnot m')
    | xfer rs v => exact ih htail
    | wait d => exact ih htail

/-- Bodies without a `SETBL` record each what it records from the same `BL`. -/
theorem successEvents_flatMap (h : ∀ x, PrimitiveSeq (f x)) (a : Addr) (m : Byte) :
    successEvents a m (xs.flatMap f) = xs.flatMap fun x => successEvents a m (f x) := by
  induction xs with
  | nil => rfl
  | cons x xs ih => rw [List.flatMap_cons, successEvents_append, (h x).finalBl_eq, ih, List.flatMap_cons]

end Sequences

section Passes

variable (r : Nat) (body : List MicroOp)

theorem passes_succ : passes (r + 1) body = body ++ passes r body := rfl

@[simp] theorem xferCount_passes : xferCount (passes r body) = r * xferCount body := by
  induction r with
  | zero => exact (Nat.zero_mul _).symm
  | succ r ih => rw [passes_succ, xferCount_append, ih, Nat.succ_mul, Nat.add_comm]

@[simp] theorem waitTotal_passes : waitTotal (passes r body) = r * waitTotal body := by
  induction r with
  | zero => exact (Nat.zero_mul _).symm
  | succ r ih => rw [passes_succ, waitTotal_append, ih, Nat.succ_mul, Nat.add_comm]

theorem successEvents_passes {body : List MicroOp} (h : PrimitiveSeq body) (a : Addr) (m : Byte) :
    successEvents a m (passes r body) = (List.replicate r (successEvents a m body)).flatten := by
  induction r with
  | zero => rfl
  | succ r ih => rw [passes_succ, successEvents_append, h.finalBl_eq, ih]; rfl

end Passes

section Bodies

variable (line : Byte) (d : Nat) (a : Addr) (m : Byte)

@[simp] theorem xferCount_wait : xferCount [.wait d] = 0 := rfl

@[simp] theorem waitTotal_wait : waitTotal [.wait d] = d := rfl

@[simp] theorem successEvents_wait : successEvents a m [.wait d] = [.w d] := rfl

section Windows

variable (windows : List (List Byte))

theorem xferCount_windowPass :
    xferCount (windowPass windows line d) = (windows.map fun win => win.length + 1).sum := by
  rw [windowPass, xferCount_flatMap]
  simp only [xferCount_append, xferCount_writeOps, xferCount_wait, Nat.add_zero]

theorem waitTotal_windowPass :
    waitTotal (windowPass windows line d) = xferCount (windowPass windows line d) * 2000 + windows.length * d :=
  waitTotal_flatMap windows fun win => by
    rw [waitTotal_append, xferCount_append, waitTotal_writeOps, xferCount_writeOps, waitTotal_wait, xferCount_wait,
      Nat.add_zero]

theorem successEvents_windowPass : successEvents a m (windowPass windows line d) =
    windows.flatMap fun win => writeEvents a m win line 0 ++ [.w d] := by
  rw [windowPass, successEvents_flatMap _ fun win => (PrimitiveSeq.writeOps win line 0).append (.wait d)]
  simp only [successEvents_append, successEvents_writeOps, successEvents_wait]

variable {windows} {n w : Nat} (r : Nat) (hlen : windows.length = n) (hwidth : ∀ win ∈ windows, win.length = w)
include hlen hwidth

/-- A horizontal scroll makes one transaction for the address and one for each byte of each window. -/
theorem xferCount_passes_windowPass : xferCount (passes r (windowPass windows line d)) = r * n * (w + 1) := by
  have hall : ∀ k ∈ windows.map fun win => win.length + 1, k = w + 1 := by
    simpa using fun win hwin => hwidth win hwin
  rw [xferCount_passes, xferCount_windowPass, List.sum_eq_card_nsmul _ _ hall, List.length_map, hlen, smul_eq_mul,
    Nat.mul_assoc]

theorem waitTotal_passes_windowPass :
    waitTotal (passes r (windowPass windows line d)) = r * n * (w + 1) * 2000 + r * n * d := by
  rw [← xferCount_passes_windowPass line d r hlen hwidth, waitTotal_passes, xferCount_passes, waitTotal_windowPass, hlen,
    Nat.mul_add, Nat.mul_assoc, Nat.mul_assoc]

end Windows

section Lines

variable (lines : List (List Byte))

theorem xferCount_pairPass : xferCount (pairPass lines d) =
    ((lines.zip lines.tail).map fun p => (1 + p.1.length) + (1 + p.2.length)).sum := by
  rw [pairPass, xferCount_flatMap]
  simp only [xferCount_append, xferCount_writeOps, xferCount_wait, Nat.add_zero, Nat.add_comm 1]

theorem waitTotal_pairPass : waitTotal (pairPass lines d) =
    xferCount (pairPass lines d) * 2000 + (lines.zip lines.tail).length * d :=
  waitTotal_flatMap (lines.zip lines.tail) fun p => by
    simp only [waitTotal_append, xferCount_append, waitTotal_writeOps, xferCount_writeOps, waitTotal_wait, xferCount_wait,
      Nat.add_zero, Nat.add_mul]

theorem successEvents_pairPass : successEvents a m (pairPass lines d) =
    (lines.zip lines.tail).flatMap fun p => writeEvents a m p.1 1 0 ++ writeEvents a m p.2 2 0 ++ [.w d] := by
  have hbody (p : List Byte × List Byte) : PrimitiveSeq (writeOps p.1 1 0 ++ writeOps p.2 2 0 ++ [.wait d]) :=
    ((PrimitiveSeq.writeOps p.1 1 0).append (.writeOps p.2 2 0)).append (.wait d)
  rw [pairPass, successEvents_flatMap _ hbody]
  simp only [successEvents_append, finalBl_writeOps, finalBl_append, successEvents_writeOps, successEvents_wait]

end Lines

end Bodies

/-- Settles O48: the counts of the passes (`xferCount_passes_windowPass`, `xferCount_pairPass`) and their waits. -/
theorem scrollTransactionCounts : Obligations.ScrollTransactionCounts := by
  unfold Obligations.ScrollTransactionCounts
  intro c width text line delay reps w n r d pairs
  have hleft : ∀ win ∈ leftWindows c w text, win.length = w := fun _ => length_of_mem_leftWindows
  have hright : ∀ win ∈ rightWindows c w text, win.length = w := fun _ => length_of_mem_rightWindows
  have hleftLen := length_leftWindows c w text
  have hrightLen := length_rightWindows c w text
  refine ⟨xferCount_passes_windowPass line d r hleftLen hleft, xferCount_passes_windowPass line d r hrightLen hright, ?_,
    waitTotal_passes_windowPass line d r hleftLen hleft, waitTotal_passes_windowPass line d r hrightLen hright, ?_⟩
  · rw [scrollVOps, xferCount_passes, xferCount_pairPass]
  · rw [scrollVOps, waitTotal_passes, waitTotal_pairPass, xferCount_passes, Nat.mul_add, Nat.mul_assoc, Nat.mul_assoc]

end Sys2Proof.Machine

/-! ### The scrolls, accepted and run to the end (spec R140 to R144, R254) -/

namespace Sys2Proof.Machine

/-- Settles O23: the meaning of each scroll is the acceptance of its expansion, which is made of passes by definition. -/
theorem scrollRequestsAreAccepted : Obligations.ScrollRequestsAreAccepted := by
  unfold Obligations.ScrollRequestsAreAccepted
  exact fun text line delay reps s => ⟨rfl, rfl, rfl⟩

/-- A request whose acceptance writes no register and whose queue is passes over a body of `cmd`s, `char`s and waits, which the
bus takes to its end. -/
theorem answered_passes {s : State} {i : Instr} {body : List MicroOp} {r oks : Nat} (h : s.offered i oks)
    (he : exec i (s.pass.setOffers s.offers.tail) = .next ((s.pass.setOffers s.offers.tail).accept i (passes r body)))
    (hoks : oks = xferCount (passes r body)) (hbody : PrimitiveSeq body) :
    ∃ t, s.answered t (List.replicate r (successEvents s.addr s.readBl body)).flatten .ok (waitTotal (passes r body)) ∧
      s.sameRegisters t := by
  subst hoks
  obtain ⟨u, hu, hanswered⟩ := answered_of_accepted h he rfl
  rw [State.accept_q, successEvents_passes r hbody] at hanswered
  exact ⟨_, hanswered, hu.addr, hu.bl.trans ((hbody.passes r).finalBl_eq s.bl), hu.width⟩

/-- A horizontal scroll with `n` windows of the width `w`. -/
theorem answered_windows {s : State} {i : Instr} {windows : List (List Byte)} {line : Byte} {d r n w : Nat}
    (h : s.offered i (r * n * (w + 1)))
    (he : exec i (s.pass.setOffers s.offers.tail) =
      .next ((s.pass.setOffers s.offers.tail).accept i (passes r (windowPass windows line d))))
    (hlen : windows.length = n) (hwidth : ∀ win ∈ windows, win.length = w) :
    ∃ t, s.answered t
        (List.replicate r (windows.flatMap fun win => writeEvents s.addr s.readBl win line 0 ++ [.w d])).flatten .ok
        (r * n * (w + 1) * 2000 + r * n * d) ∧ s.sameRegisters t := by
  rw [← waitTotal_passes_windowPass line d r hlen hwidth, ← successEvents_windowPass]
  exact answered_passes h he (xferCount_passes_windowPass line d r hlen hwidth).symm (.windowPass windows line d)

/-- Settles O42: both scrolls have `text.length + 1` windows of the width (`answered_windows`). -/
theorem horizontalScrollsWriteTheirWindows : Obligations.HorizontalScrollsWriteTheirWindows := by
  unfold Obligations.HorizontalScrollsWriteTheirWindows
  exact fun s text line delay reps =>
    ⟨fun h => answered_windows h rfl (length_leftWindows ..) fun _ => length_of_mem_leftWindows,
      fun h => answered_windows h rfl (length_rightWindows ..) fun _ => length_of_mem_rightWindows⟩

/-- Settles O43: the scroll is answered after the events of its passes (`successEvents_pairPass`) and its waits. -/
theorem verticalScrollWritesAdjacentPairs : Obligations.VerticalScrollWritesAdjacentPairs := by
  unfold Obligations.VerticalScrollWritesAdjacentPairs
  intro s text delay reps oks hoks h lines
  rw [← successEvents_pairPass]
  exact answered_passes h rfl hoks (.pairPass lines delay.toNat)

end Sys2Proof.Machine

/-! ### `cgram`, accepted or refused, and run to the end (spec R160, R208, R254) -/

namespace Sys2Proof.Machine

/-- A `cgram` with eight rows for one of the eight slots is accepted (spec R160). -/
theorem exec_cgram_of_in_range {loc : Byte} {rows : List Byte} (hrows : rows.length = 8) (hloc : loc.toNat ≤ 7) (s : State) :
    exec (.cgram loc rows) s = .next (s.accept (.cgram loc rows) (cgramOps loc rows)) := by
  simp only [exec, execCgram, ne_eq, hrows, not_true_eq_false, if_false, if_neg hloc.not_gt]

/-- Settles O24: a `cgram` with eight rows is well-formed, and then its location decides (`exec_cgram_of_in_range`,
`exec_cgram_of_out_of_range`); with another number of rows it is not, whatever the location (`exec_of_not_wellFormed`). -/
theorem glyphRequestIsAcceptedOrRefused : Obligations.GlyphRequestIsAcceptedOrRefused := by
  unfold Obligations.GlyphRequestIsAcceptedOrRefused
  refine fun loc rows s => ⟨exec_cgram_of_in_range (s := s), fun hrows hloc => ?_, fun hrows => ?_⟩
  · exact exec_cgram_of_out_of_range (beq_iff_eq.2 hrows) hloc s
  · exact exec_of_not_wellFormed (i := .cgram loc rows) (beq_eq_false_iff_ne.2 hrows) s

section CgramOps

variable (loc : Byte) (rows : List Byte)

theorem successEvents_cgramOps (a : Addr) (m : Byte) : successEvents a m (cgramOps loc rows) =
    sendEvents a m false (cgCommand loc) ++ rows.flatMap (sendEvents a m true) ++ sendEvents a m false 0x80#8 := by
  simp only [cgramOps, successEvents_append, finalBl_append, finalBl_send, finalBl_sendText, successEvents_send,
    successEvents_sendText]

theorem finalBl_cgramOps (m : Byte) : finalBl m (cgramOps loc rows) = m := by
  simp only [cgramOps, finalBl_append, finalBl_send, finalBl_sendText]

theorem sentBytes_cgramOps : sentBytes (cgramOps loc rows) =
    (false, cgCommand loc) :: (rows.map fun v => (true, v)) ++ [(false, 0x80#8)] := by
  simp only [cgramOps, sentBytes_append, sentBytes_send, sentBytes_sendText, List.singleton_append]

theorem xferCount_cgramOps : xferCount (cgramOps loc rows) = rows.length + 2 := by
  simp [xferCount, sentBytes_cgramOps]

theorem waitTotal_cgramOps : waitTotal (cgramOps loc rows) = (rows.length + 2) * 2000 := by
  simp only [cgramOps, waitTotal_append, waitTotal_send, waitTotal_sendText]
  omega

end CgramOps

/-- Settles O44: in range, `cgram` is accepted with the queue `cgramOps` (`exec_cgram_of_in_range`), which the bus takes to its
end (`answered_of_accepted`); eight rows make ten transactions of it, each with its 2 ms. -/
theorem glyphIsProgrammedInTenTransactions : Obligations.GlyphIsProgrammedInTenTransactions := by
  unfold Obligations.GlyphIsProgrammedInTenTransactions
  intro s loc rows hrows hloc h
  have hcount : 10 = xferCount (cgramOps loc rows) := by rw [xferCount_cgramOps, hrows]
  rw [hcount] at h
  obtain ⟨u, hu, hanswered⟩ := answered_of_accepted h (exec_cgram_of_in_range hrows hloc _) rfl
  rw [State.accept_q, successEvents_cgramOps, waitTotal_cgramOps, hrows] at hanswered
  exact ⟨_, hanswered, ⟨hu.addr, hu.bl.trans (finalBl_cgramOps loc rows s.bl), hu.width⟩,
    hu.controllerBytes.trans (sentBytes_cgramOps loc rows)⟩

end Sys2Proof.Machine

/-! ### A failed transaction ends the request (spec R202, R205 to R207)

The step of a transaction that fails leads to `State.aborted`, whatever was left of the queue; what the queue did before it is
what `Performed` says. -/

namespace Sys2Proof.Machine

/-- The state after the step whose transaction fails with `Err(k)`. -/
def State.aborted (s : State) (rs : Bool) (v : Byte) (k : BusErrorKind) : State :=
  ((s.pass.transact rs v).loseExpander).raise (.eBus k)

section AbortedFields

variable (s : State) (rs : Bool) (v : Byte) (k : BusErrorKind)

@[simp] theorem aborted_addr : (s.aborted rs v k).addr = s.addr := by simp [State.aborted]
@[simp] theorem aborted_bl : (s.aborted rs v k).bl = s.bl := by simp [State.aborted]
@[simp] theorem aborted_width : (s.aborted rs v k).width = s.width := by simp [State.aborted]
@[simp] theorem aborted_phase : (s.aborted rs v k).phase = .idle := by simp [State.aborted]
@[simp] theorem aborted_q : (s.aborted rs v k).q = [] := by simp [State.aborted]
@[simp] theorem aborted_cur : (s.aborted rs v k).cur = none := by simp [State.aborted]
@[simp] theorem aborted_mem : (s.aborted rs v k).mem = s.mem.forget s.addr.toNat := by simp [State.aborted]
@[simp] theorem aborted_wire : (s.aborted rs v k).wire = s.wire := by simp [State.aborted]
@[simp] theorem aborted_offers : (s.aborted rs v k).offers = s.offers := by simp [State.aborted]
@[simp] theorem aborted_busIn : (s.aborted rs v k).busIn = s.busIn.tail := by simp [State.aborted]
@[simp] theorem aborted_cfg : (s.aborted rs v k).cfg = s.cfg := by simp [State.aborted]

theorem now_le_aborted : s.now ≤ (s.aborted rs v k).now := (now_le_pass s).trans (Nat.le_add_right _ _)

theorem sameRegisters_aborted : s.sameRegisters (s.aborted rs v k) := by simp [State.sameRegisters]

end AbortedFields

section Abort

variable {s : State} {rs : Bool} {v : Byte} {ops : List MicroOp} {k : BusErrorKind}

theorem step_xfer_err (hw : s.wire = []) (hp : s.phase ≠ .idle) (hq : s.q = .xfer rs v :: ops)
    (herr : s.nextOutcome = .err k) : step s = .next (s.aborted rs v k) := by
  rw [step_queue_cons hw hp hq]
  exact congrArg _ (xfer_err (s := s.pass.setQ ops) herr)

/-- The event of the transaction, then the response, with the same kind (spec R205). -/
theorem aborted_trace (herr : s.nextOutcome = .err k) : (s.aborted rs v k).trace =
    s.trace ++ [.x s.addr (frame rs v s.readBl) (.err k), .r (.eBus k)] := by
  simp [State.aborted, herr]

end Abort

/-- Settles O11: the step leads to `State.aborted` (`step_xfer_err`), which keeps the registers and loses the latch. -/
theorem failedTransactionAbortsTheRequest : Obligations.FailedTransactionAbortsTheRequest := by
  unfold Obligations.FailedTransactionAbortsTheRequest
  intro s rs v ops k hw hp hq herr
  refine ⟨s.aborted rs v k, step_xfer_err hw hp hq herr, aborted_trace herr, ?_⟩
  simp +contextual [hw, sameRegisters_aborted, now_le_aborted]

/-- Settles O34: what comes before the failing transaction is performed (`runs_performed`), and the next step aborts
(`step_xfer_err`). -/
theorem firstFailureEndsTheRequest : Obligations.FirstFailureEndsTheRequest := by
  unfold Obligations.FirstFailureEndsTheRequest
  intro s before after rs v k more hw hp hq hk hbus
  obtain ⟨u, hruns, h⟩ := runs_performed hw hp hq hbus
  have hq' : u.q = .xfer rs v :: after := List.append_cancel_left (h.q.symm.trans hq)
  have hbus' : u.busIn = .err k :: more := by rw [h.busIn, hbus, List.drop_left' (List.length_replicate ..)]
  have herr : u.nextOutcome = .err k := nextOutcome_cons hbus' (by rw [h.cfg, hk])
  refine ⟨u.aborted rs v k, ?_, ?_, ?_⟩
  · rw [runs_add hruns, runs_succ (step_xfer_err h.wire (h.phase ▸ hp) hq' herr), runs_zero]
  · rw [aborted_trace herr, h.trace, h.addr, h.readBl]
  · have hnow := h.now.trans (now_le_aborted u rs v k)
    simp +contextual [h.wire, h.addr, h.width, h.bl, hbus', h.offers, h.cfg, hnow, h.others]

end Sys2Proof.Machine

/-! ### Every accepted request ends (spec R204, R208, R210, R54)

Whatever the bus does, a head of the queue is performed, after which the queue is empty or the next transaction fails
(`runs_until_end_or_failure`). -/

namespace Sys2Proof.Machine

theorem isResponse_eq_false_of_mem_successEvents {a : Addr} {m : Byte} {ops : List MicroOp} :
    ∀ e ∈ successEvents a m ops, e.isResponse = false := by
  induction ops generalizing m with
  | nil => nofun
  | cons u ops ih =>
    cases u with
    | setbl m' => exact ih
    | xfer rs v => exact List.forall_mem_cons.2 ⟨rfl, ih⟩
    | wait d => exact List.forall_mem_cons.2 ⟨rfl, ih⟩

/-- A micro-operation is run to its end, unless it is a transaction that fails. -/
theorem runs_microOp_or_failure {s : State} {u : MicroOp} {ops : List MicroOp} (hw : s.wire = []) (hp : s.phase ≠ .idle)
    (hq : s.q = u :: ops) :
    (∃ t, runs (stepCount [u]) s = .next t ∧ Performed s [u] t) ∨ ∃ rs v k, u = .xfer rs v ∧ s.nextOutcome = .err k := by
  cases u with
  | setbl m | wait d => exact .inl (runs_microOp hw hp hq (more := s.busIn) rfl)
  | xfer rs v =>
    rcases ho : s.nextOutcome with _ | k
    · obtain ⟨t, hruns, h, _⟩ := runs_xfer_ok hw hp hq ho
      exact .inl ⟨t, hruns, h⟩
    · exact .inr ⟨rs, v, k, rfl, rfl⟩

/-- The queue is performed up to its end, or up to the first transaction that fails. -/
theorem runs_until_end_or_failure {s : State} (hw : s.wire = []) (hp : s.phase ≠ .idle) :
    ∃ ops t, runs (stepCount ops) s = .next t ∧ Performed s ops t ∧
      (t.q = [] ∨ ∃ rs v rest k, t.q = .xfer rs v :: rest ∧ t.nextOutcome = .err k) := by
  induction hq : s.q generalizing s with
  | nil => exact ⟨[], s, rfl, .nil hw, .inl hq⟩
  | cons u ops ih =>
    obtain ⟨t, hruns, h⟩ | ⟨rs, v, k, rfl, herr⟩ := runs_microOp_or_failure hw hp hq
    · have hrest : t.q = ops := (List.cons.inj (h.q.symm.trans hq)).2
      obtain ⟨ops', t', hruns', h', hend⟩ := ih h.wire (h.phase ▸ hp) hrest
      refine ⟨[u] ++ ops', t', ?_, h.append h', hend⟩
      rw [stepCount_append, runs_add hruns, hruns']
    · exact ⟨[], s, rfl, .nil hw, .inr ⟨rs, v, ops, k, hq, herr⟩⟩

theorem Performed.stepCount_le {s t : State} {ops : List MicroOp} (h : Performed s ops t) : stepCount ops ≤ stepCount s.q := by
  rw [h.q, stepCount_append]
  exact Nat.le_add_right _ _

/-- Settles O35: one step after the performed head of the queue (`runs_until_end_or_failure`) the request ends, with `OK` where
the queue is empty, with the bus error where the transaction fails. -/
theorem everyRequestEndsWithOneResponse : Obligations.EveryRequestEndsWithOneResponse := by
  unfold Obligations.EveryRequestEndsWithOneResponse
  intro s hw hp
  obtain ⟨ops, u, hruns, h, hend⟩ := runs_until_end_or_failure hw hp
  have hp' : u.phase ≠ .idle := h.phase ▸ hp
  have hlast {t : State} (hstep : step u = .next t) : runs (stepCount ops + 1) s = .next t := by
    rw [runs_add hruns, runs_succ hstep, runs_zero]
  have hbound : stepCount ops + 1 ≤ stepCount s.q + 1 := Nat.succ_le_succ h.stepCount_le
  obtain hq | ⟨rs, v, rest, k, hq, herr⟩ := hend
  · exact ⟨_, _, hbound, hlast (step_queue_nil h.wire hp' hq), rfl, hq, h.wire, rfl, h.offers,
      successEvents s.addr s.readBl ops, .ok, congrArg (· ++ [_]) h.trace, isResponse_eq_false_of_mem_successEvents,
      .inl rfl⟩
  · refine ⟨_, _, hbound, hlast (step_xfer_err h.wire hp' hq herr), aborted_phase .., aborted_q ..,
      (aborted_wire ..).trans h.wire, aborted_cur .., (aborted_offers ..).trans h.offers,
      successEvents s.addr s.readBl ops ++ [.x u.addr (frame rs v u.readBl) (.err k)], .eBus k, ?_, ?_, .inr ⟨k, rfl⟩⟩
    · rw [aborted_trace herr, h.trace]
      simp
    · exact List.forall_mem_append.2 ⟨isResponse_eq_false_of_mem_successEvents, by simp [Event.isResponse]⟩

end Sys2Proof.Machine

/-! ### No state of the invariant stops the machine (spec R62, R210) -/

namespace Sys2Proof.Machine

/-- Settles O51: no step refuses, and the one fault is that of a byte with `RW` set (`onlyAReadByteFaults`), which a legal wire
does not hold. -/
theorem nothingStopsTheMachine : Obligations.NothingStopsTheMachine := by
  unfold Obligations.NothingStopsTheMachine
  intro s h
  obtain ⟨hfault, hrefused⟩ := onlyAReadByteFaults s
  rcases hs : step s with t | f | r
  · exact ⟨t, rfl⟩
  · obtain ⟨_, b, rest, hw, hhigh⟩ := (hfault f).1 hs
    have hlow : lineRw b = false := (h.wire.1 b (hw ▸ List.mem_cons_self)).1
    exact absurd hhigh (by simp [hlow])
  · exact absurd hs (hrefused r)

end Sys2Proof.Machine

/-! ### What a step records (spec R12, R107, R201, R202, R204)

`Recorded` says it once, of every step (`step_records`): the events of a micro-operation (`State.microEvents`), or at most one
response, which is `E_RANGE` only where a `cgram` out of range was offered to an idle block (`RangeRefused`). -/

namespace Sys2Proof.Machine

/-- The events that running a micro-operation records (spec R101 to R103, R205). -/
def State.microEvents (s : State) : MicroOp → List Event
  | .setbl _ => []
  | .wait d => [.w d]
  | .xfer rs v => .x s.addr (frame rs v s.readBl) s.nextOutcome ::
      match s.nextOutcome with
      | .ok => []
      | .err k => [.r (.eBus k)]

theorem runMicro_trace (s : State) (u : MicroOp) : (s.runMicro u).trace = s.trace ++ s.microEvents u := by
  cases u with
  | setbl m => exact (List.append_nil _).symm
  | wait d => rfl
  | xfer rs v =>
    obtain ⟨ho, hx⟩ | ⟨k, ho, hx⟩ := xfer_cases s rs v <;> simp [State.runMicro, State.microEvents, hx, ho]

/-- The block was idle and was offered a `cgram` with eight rows and the location `loc`, which is out of range; the step from
`s` to `t` took it, recorded `E_RANGE(loc)`, and did nothing else. -/
def RangeRefused (s t : State) (loc : Byte) : Prop :=
  s.wire = [] ∧ s.phase = .idle ∧ 7 < loc.toNat ∧
    ∃ r rest rows, s.offers = r :: rest ∧ decodeRequest r = .ok (.cgram loc rows) ∧ rows.length = 8 ∧
      t = { s.pass with offers := rest, trace := s.trace ++ [.r (.eRange loc)] }

/-- What the step from `s` to `t` can record. -/
inductive Recorded (s t : State) : List Event → Prop
  | nothing : Recorded s t []
  | micro (u : MicroOp) : Recorded s t (s.microEvents u)
  | done : Recorded s t [.r .ok]
  | illegal : Recorded s t [.r .eIllegal]
  | range {loc : Byte} (h : RangeRefused s t loc) : Recorded s t [.r (.eRange loc)]

theorem step_records {s t : State} (h : step s = .next t) :
    ∃ events, t.trace = s.trace ++ events ∧ Recorded s t events := by
  have hnil : s.trace = s.trace ++ [] := (List.append_nil _).symm
  obtain ⟨b, rest, _, _, rfl⟩ | ⟨_, _, u, ops, _, rfl⟩ | ⟨_, _, _, rfl⟩ | ⟨_, _, _, rfl⟩ |
    ⟨hw, hp, r, rest, ho, ⟨_, rfl⟩ | ⟨i, hd, hexec⟩⟩ := step_cases h
  · exact ⟨[], hnil, .nothing⟩
  · exact ⟨_, runMicro_trace (s.pass.setQ ops) u, .micro u⟩
  · exact ⟨_, rfl, .done⟩
  · exact ⟨[], hnil, .nothing⟩
  · exact ⟨_, rfl, .illegal⟩
  · obtain ⟨ops, _, _, he⟩ | ⟨a, f, w, _, _, he⟩ | ⟨resp, he, ⟨rfl, _⟩ | ⟨loc, rows, rfl, hrows, hloc, rfl⟩⟩ :=
        exec_request_cases (isRequest_of_decodeRequest hd) (s.pass.setOffers rest) <;>
      obtain rfl := Host.Outcome.next.inj (he.symm.trans hexec)
    · exact ⟨[], hnil, .nothing⟩
    · exact ⟨[], hnil, .nothing⟩
    · exact ⟨_, rfl, .illegal⟩
    · exact ⟨_, rfl, .range ⟨hw, hp, hloc, r, rest, rows, ho, hd, hrows, rfl⟩⟩

/-- The event names no outcome and no kind of bus error but those that the parameters admit. -/
def Event.Admitted (c : Config) (e : Event) : Prop :=
  (∀ a bytes o, e = .x a bytes o → admits c o = true) ∧ ∀ k, e = .r (.eBus k) → admits c (.err k) = true

/-- The events of a micro-operation carry the outcome of its transaction, which is admitted (`nextOutcome_admitted`). -/
theorem admitted_of_mem_microEvents {s : State} {u : MicroOp} : ∀ e ∈ s.microEvents u, e.Admitted s.cfg := by
  have hadmitted := nextOutcome_admitted s
  cases u with
  | setbl m => nofun
  | wait d => simp [State.microEvents, Event.Admitted]
  | xfer rs v =>
    rcases ho : s.nextOutcome with _ | k <;> rw [ho] at hadmitted <;>
      simp [State.microEvents, Event.Admitted, ho, hadmitted]

theorem admits_other_iff (c : Config) (n : Nat) :
    admits c (.err (.other n)) = true ↔ c.kinds = .all ∨ ∃ ns, c.kinds = .listed ns ∧ n ∈ ns := by
  cases hk : c.kinds <;> simp [admits, hasKind, hk]

/-- Settles O53: of what a step records (`step_records`) only the events of a transaction name an outcome or a kind, and they
name its own. -/
theorem onlyKindsOfTheParameterAreReported : Obligations.OnlyKindsOfTheParameterAreReported := by
  unfold Obligations.OnlyKindsOfTheParameterAreReported
  refine ⟨fun s o more => nextOutcome_cons, fun s t h => ?_, fun c => rfl, admits_other_iff⟩
  have other {resp : Response} (hne : ∀ k, resp ≠ .eBus k) : ∀ e ∈ [Event.r resp], e.Admitted s.cfg := by
    simp [Event.Admitted, hne]
  obtain ⟨events, htrace, hrec⟩ := step_records h
  refine ⟨events, htrace, ?_⟩
  cases hrec with
  | nothing => nofun
  | micro u => exact admitted_of_mem_microEvents
  | done | illegal | range _ => exact other nofun

theorem microEvents_ne_eRange (s : State) (u : MicroOp) (loc : Byte) : s.microEvents u ≠ [.r (.eRange loc)] := by
  cases u <;> simp [State.microEvents]

/-- Settles O55: a step that records `E_RANGE` is one that refuses a `cgram` (`step_records`), as every step does that is offered
one out of range (`exec_cgram_of_out_of_range`); every other well-formed request is accepted (`exec_of_wellFormed`). -/
theorem onlyGlyphLocationsAreRangeChecked : Obligations.OnlyGlyphLocationsAreRangeChecked := by
  unfold Obligations.OnlyGlyphLocationsAreRangeChecked
  refine ⟨fun s t loc h hrange => ?_, fun s r rest loc rows hw hp ho hd hrows hloc => ?_, fun i s hi hwf hin => ?_⟩
  · obtain ⟨events, htrace, hrec⟩ := step_records h
    have hevents : events = [.r (.eRange loc)] := List.append_cancel_left (htrace.symm.trans hrange)
    cases hrec with
    | nothing | done | illegal => cases hevents
    | micro u => exact absurd hevents (microEvents_ne_eRange s u loc)
    | range hrefused =>
      cases hevents
      exact hrefused
  · rw [step_idle_cons hw hp ho, takeRequest_of_decodes hd, exec_cgram_of_out_of_range (beq_iff_eq.2 hrows) hloc]
    rfl
  · obtain ⟨t, he, ⟨hphase, _, htrace⟩ | ⟨loc, rows, hcgram, hloc, _⟩⟩ := exec_of_wellFormed hi hwf s
    · exact ⟨t, he, hphase, htrace⟩
    · exact absurd (hin loc rows hcgram) hloc.not_ge

end Sys2Proof.Machine

/-! ### Time decides nothing (spec R213, R254, R255)

A state at another time (`State.atTime`) takes the same case of a step, and each case but for the time does the same there. -/

namespace Sys2Proof.Machine

/-- The state at another time, and with another count of steps. -/
def State.atTime (s : State) (time count : Nat) : State := { s with now := time, steps := count }

/-- A micro-operation reads the time only to set it. -/
theorem runMicro_atTime (s : State) (u : MicroOp) (time count : Nat) :
    ∃ time' count', (s.atTime time count).runMicro u = (s.runMicro u).atTime time' count' := by
  cases u with
  | setbl m => exact ⟨_, _, rfl⟩
  | wait d => exact ⟨_, _, rfl⟩
  | xfer rs v =>
    obtain ⟨ho, hx⟩ | ⟨k, ho, hx⟩ := xfer_cases s rs v
    · exact ⟨_, _, by rw [State.runMicro, State.runMicro, hx, xfer_ok (s := s.atTime time count) ho]; rfl⟩
    · exact ⟨_, _, by rw [State.runMicro, State.runMicro, hx, xfer_err (s := s.atTime time count) ho]; rfl⟩

/-- The meaning of an instruction neither reads the time nor sets it: only `init` and `cgram` decide anything, by their
operands. -/
theorem exec_atTime {i : Instr} {s t : State} (h : exec i s = .next t) (time count : Nat) :
    exec i (s.atTime time count) = .next (t.atTime time count) := by
  cases i with
  | init a f w =>
    simp only [exec, execInit] at h ⊢
    split at h <;> obtain rfl := Host.Outcome.next.inj h
    · next hw => exact if_pos hw
    · next hw => exact if_neg hw
  | cgram loc rows =>
    simp only [exec, execCgram] at h ⊢
    split at h
    · next hrows =>
      obtain rfl := Host.Outcome.next.inj h
      exact if_pos hrows
    · next hrows =>
      rw [if_neg hrows]
      split at h <;> obtain rfl := Host.Outcome.next.inj h
      · next hloc => exact if_pos hloc
      · next hloc => exact if_neg hloc
  | _ =>
    obtain rfl := Host.Outcome.next.inj h
    rfl

theorem takeRequest_of_undecodable {r : Request} {e : DecodeError} (h : decodeRequest r = .error e) (s : State) :
    takeRequest r s = .next (s.refuse .eIllegal) := by
  simp only [takeRequest, h]

/-- A byte with `RW` low is taken. -/
theorem step_of_lineRw_low {s : State} {b : Byte} {rest : List Byte} (hw : s.wire = b :: rest) (hb : lineRw b = false) :
    step s = .next (s.takeByte b rest) := by
  rw [← expanderByte_of_lines hb] at hw ⊢
  exact step_takeByte hw

/-- A step is the same at any other time, but for the time. -/
theorem step_atTime {s t : State} (h : step s = .next t) (time count : Nat) :
    ∃ time' count', step (s.atTime time count) = .next (t.atTime time' count') := by
  obtain ⟨b, rest, hw, hb, rfl⟩ | ⟨hw, hp, u, ops, hq, rfl⟩ | ⟨hw, hp, hq, rfl⟩ | ⟨hw, hp, ho, rfl⟩ |
    ⟨hw, hp, r, rest, ho, htake⟩ := step_cases h
  · exact ⟨_, _, step_of_lineRw_low hw hb⟩
  · obtain ⟨time', count', hrun⟩ := runMicro_atTime (s.pass.setQ ops) u (time + Config.freeStepTime count) (count + 1)
    exact ⟨time', count', (step_queue_cons (s := s.atTime time count) hw hp hq).trans (congrArg _ hrun)⟩
  · exact ⟨_, _, step_queue_nil hw hp hq⟩
  · exact ⟨_, _, step_idle_nil hw hp ho⟩
  · refine ⟨time + Config.freeStepTime count, count + 1, (step_idle_cons (s := s.atTime time count) hw hp ho).trans ?_⟩
    obtain ⟨⟨e, hd⟩, rfl⟩ | ⟨i, hd, hexec⟩ := htake
    · exact takeRequest_of_undecodable hd _
    · exact (takeRequest_of_decodes hd _).trans (exec_atTime hexec _ _)

/-- Settles O57: the step at the other time leads to the same state at another time (`step_atTime`). -/
theorem timeDecidesNothing : Obligations.TimeDecidesNothing := by
  unfold Obligations.TimeDecidesNothing
  intro s t time count h
  obtain ⟨time', count', hstep⟩ := step_atTime h time count
  exact ⟨t.atTime time' count', hstep, rfl⟩

end Sys2Proof.Machine

/-! ### The response word (spec R200, R217) -/

namespace Sys2Proof.Machine

/-- The word is put together of its three fields (spec R200). -/
theorem responseWord_fields (r : Response) :
    (responseWord r).extractLsb' 0 8 = responseCode r ∧ (responseWord r).extractLsb' 8 8 = responseInfo r ∧
      (responseWord r).extractLsb' 16 16 = 0 :=
  ⟨(BitVec.extractLsb'_append_eq_of_add_le (by decide)).trans BitVec.extractLsb'_append_eq_right,
    (BitVec.extractLsb'_append_eq_of_add_le (by decide)).trans BitVec.extractLsb'_append_eq_left,
    BitVec.extractLsb'_append_eq_left⟩

/-- The index of a further kind is 3 and a number below 253, so it fits in its byte. -/
theorem toNat_kindIndex_other (n : Nat) :
    (kindIndex (.other n)).toNat = 3 + if n < 253 then n else (Config.freeKindIndex n).val := by
  have hfree : (Config.freeKindIndex n).val < 253 := (Config.freeKindIndex n).isLt
  simp only [kindIndex, BitVec.toNat_ofNat]
  split <;> omega

/-- Settles O19: the word's fields (`responseWord_fields`), and the index of a further kind (`toNat_kindIndex_other`). -/
theorem responseWordHasItsLayout : Obligations.ResponseWordHasItsLayout := by
  unfold Obligations.ResponseWordHasItsLayout
  refine ⟨responseWord_fields, rfl, rfl, fun loc => ⟨rfl, rfl⟩, fun k => ⟨rfl, rfl⟩, rfl, rfl, rfl, fun n => ?_⟩
  rw [toNat_kindIndex_other]
  exact ⟨Nat.le_add_right _ _, fun hn => by rw [if_pos hn]⟩

end Sys2Proof.Machine

/-! ### Every step keeps the trace settled (spec R108, R205, R209, R246)

A settled trace is a chain of events each of which may follow the one before (`Event.MayFollow`). It is complete
(`CompleteTrace`) when it does not end in a transaction: then a response, a wait or the next transaction may come. -/

namespace Sys2Proof.Machine

/-- What may follow an event: after a transaction only its 2 ms wait (spec R246), or the response to its failure (R205). -/
def Event.MayFollow : Event → Event → Prop
  | .x _ _ .ok, e => e = .w tCmdUs
  | .x _ _ (.err k), e => e = .r (.eBus k)
  | .w _, _ | .r _, _ => True

theorem settledTrace_iff_isChain (events : List Event) : settledTrace events ↔ events.IsChain Event.MayFollow := by
  fun_induction settledTrace events with
  | case1 => exact iff_of_true trivial .nil
  | case2 e => exact iff_of_true trivial (.singleton e)
  | case3 a bytes e es ih => rw [ih, List.isChain_cons_cons]; rfl
  | case4 a bytes k e es ih => rw [ih, List.isChain_cons_cons]; rfl
  | case5 d e es ih => rw [ih, List.isChain_cons_cons]; exact (and_iff_right trivial).symm
  | case6 resp e es ih => rw [ih, List.isChain_cons_cons]; exact (and_iff_right trivial).symm

/-- Is the event a transaction? -/
def Event.IsTransaction (e : Event) : Prop := ∃ a bytes o, e = .x a bytes o

theorem Event.mayFollow_of_not_isTransaction {e : Event} (h : ¬e.IsTransaction) (e' : Event) : e.MayFollow e' := by
  cases e with
  | x a bytes o => exact absurd ⟨a, bytes, o, rfl⟩ h
  | w d | r resp => trivial

/-- The trace is settled and does not end in a transaction. -/
def CompleteTrace (events : List Event) : Prop :=
  settledTrace events ∧ ∀ e ∈ events.getLast?, ¬e.IsTransaction

namespace CompleteTrace

variable {events : List Event}

/-- Whatever is settled may come after a complete trace. -/
theorem settledTrace_append (h : CompleteTrace events) {more : List Event} (hmore : settledTrace more) :
    settledTrace (events ++ more) := by
  obtain ⟨hsettled, hlast⟩ := h
  rw [settledTrace_iff_isChain] at *
  exact hsettled.append hmore fun e he e' _ => Event.mayFollow_of_not_isTransaction (hlast e he) e'

theorem append_single (h : CompleteTrace events) {e : Event} (he : ¬e.IsTransaction) : CompleteTrace (events ++ [e]) := by
  refine ⟨h.settledTrace_append trivial, ?_⟩
  simpa using he

theorem append_response (h : CompleteTrace events) (resp : Response) : CompleteTrace (events ++ [.r resp]) :=
  h.append_single nofun

/-- A failed transaction and its response (spec R205). -/
theorem append_failure (h : CompleteTrace events) (a : Addr) (bytes : List Byte) (k : BusErrorKind) :
    CompleteTrace (events ++ [.x a bytes (.err k), .r (.eBus k)]) := by
  refine ⟨h.settledTrace_append ⟨rfl, trivial⟩, ?_⟩
  simp [Event.IsTransaction]

theorem traceInv {s : State} (h : CompleteTrace s.trace) : s.TraceInv :=
  ⟨h.1, fun a bytes o hlast => absurd ⟨a, bytes, o, rfl⟩ (h.2 _ hlast)⟩

end CompleteTrace

namespace State.TraceInv

variable {s t : State}

/-- Only a block that is to run the 2 ms wait has a trace that ends in a transaction. -/
theorem complete (h : s.TraceInv) (hs : s.phase = .idle ∨ ∀ ops, s.q ≠ .wait tCmdUs :: ops) : CompleteTrace s.trace := by
  refine ⟨h.1, ?_⟩
  rintro _ hlast ⟨a, bytes, o, rfl⟩
  obtain ⟨_, hp, ops, hq⟩ := h.2 a bytes o hlast
  exact hs.elim hp fun hne => hne ops hq

theorem of_eq (h : s.TraceInv) (htrace : t.trace = s.trace) (hphase : t.phase = s.phase) (hq : t.q = s.q) : t.TraceInv := by
  rw [State.TraceInv, htrace, hphase, hq]
  exact h

/-- The wait at the head of the queue is the one that a transaction at the end of the trace asks for. -/
theorem append_wait (h : s.TraceInv) {d : Nat} {ops : List MicroOp} (hq : s.q = .wait d :: ops) :
    CompleteTrace (s.trace ++ [.w d]) := by
  obtain ⟨hsettled, hlast⟩ := h
  refine ⟨?_, by simp [Event.IsTransaction]⟩
  rw [settledTrace_iff_isChain] at *
  refine hsettled.append (.singleton _) fun e he e' he' => ?_
  obtain rfl : Event.w d = e' := Option.some.inj he'
  cases e with
  | x a bytes o =>
    obtain ⟨rfl, _, ops', hq'⟩ := hlast a bytes o he
    obtain ⟨hd, _⟩ := List.cons.inj (hq.symm.trans hq')
    exact congrArg Event.w (MicroOp.wait.inj hd)
  | w d' | r resp => trivial

end State.TraceInv

/-- After an `XFER` that the bus takes, a settled queue goes on with the 2 ms wait (spec R108). -/
theorem wait_of_settledQueue {rs : Bool} {v : Byte} {ops : List MicroOp} (h : settledQueue (.xfer rs v :: ops) = true) :
    ∃ ops', ops = .wait tCmdUs :: ops' := by
  cases ops with
  | nil => cases h
  | cons u ops' =>
    cases u with
    | wait d =>
      obtain ⟨hd, _⟩ := Bool.and_eq_true_iff.1 h
      exact ⟨ops', by rw [beq_iff_eq.1 hd]⟩
    | setbl _ | xfer _ _ => cases h

/-- A transaction that the bus takes may end the trace, when the 2 ms wait comes next. -/
theorem CompleteTrace.traceInv_issued {s : State} (h : CompleteTrace s.trace) (hp : s.phase ≠ .idle) (ho : s.nextOutcome = .ok)
    (rs : Bool) (v : Byte) (ops : List MicroOp) : (s.issued rs v (.wait tCmdUs :: ops)).TraceInv := by
  refine ⟨h.settledTrace_append trivial, fun a bytes o hlast => ⟨?_, hp, ops, rfl⟩⟩
  have hlast : Event.x s.addr (frame rs v s.readBl) s.nextOutcome = .x a bytes o := by
    simpa [State.issued] using hlast
  exact (Event.x.inj hlast).2.2 ▸ ho

/-- A micro-operation, run from the head of a settled queue, keeps the trace settled. -/
theorem traceInv_runMicro {s : State} {u : MicroOp} {ops : List MicroOp} (h : s.TraceInv) (hp : s.phase ≠ .idle)
    (hq : s.q = u :: ops) (hsettled : settledQueue s.q = true) : ((s.pass.setQ ops).runMicro u).TraceInv := by
  cases u with
  | setbl m => exact CompleteTrace.traceInv (h.complete (.inr (by simp [hq])))
  | wait d => exact CompleteTrace.traceInv (h.append_wait hq)
  | xfer rs v =>
    have hcomplete : CompleteTrace s.trace := h.complete (.inr (by simp [hq]))
    obtain ⟨ops', rfl⟩ := wait_of_settledQueue (hq ▸ hsettled)
    obtain ⟨ho, hx⟩ | ⟨k, ho, hx⟩ := xfer_cases (s.pass.setQ (.wait tCmdUs :: ops')) rs v <;> rw [State.runMicro, hx]
    · exact hcomplete.traceInv_issued hp ho rs v ops'
    · exact CompleteTrace.traceInv (aborted_trace (rs := rs) (v := v) ho ▸ hcomplete.append_failure s.addr _ k)

/-- Every case of a step keeps the trace settled. Bytes that the expander takes and an idle block with nothing offered leave the
trace and the queue; every other case, but a transaction that the bus takes, ends with a complete trace. -/
theorem traceInv_step {s t : State} (hinv : s.Inv) (h : s.TraceInv) (hstep : step s = .next t) : t.TraceInv := by
  obtain ⟨b, rest, _, _, rfl⟩ | ⟨_, hp, u, ops, hq, rfl⟩ | ⟨_, _, hq, rfl⟩ | ⟨_, _, _, rfl⟩ |
    ⟨_, hp, r, rest, _, ⟨_, rfl⟩ | ⟨i, hd, hexec⟩⟩ := step_cases hstep
  · exact h.of_eq rfl rfl rfl
  · exact traceInv_runMicro h hp hq hinv.queue
  · exact ((h.complete (.inr (by simp [hq]))).append_response .ok).traceInv
  · exact h.of_eq rfl rfl rfl
  · exact ((h.complete (.inl hp)).append_response .eIllegal).traceInv
  · have hcomplete : CompleteTrace s.trace := h.complete (.inl hp)
    obtain ⟨-, -, -, -, -, -, -, -, -, -, -, hcase⟩ := requestFrame i _ t (isRequest_of_decodeRequest hd) hexec
    obtain ⟨_, _, htrace⟩ | ⟨_, _, _, _, resp, _, htrace⟩ := hcase
    · exact CompleteTrace.traceInv (htrace ▸ hcomplete)
    · exact CompleteTrace.traceInv (htrace ▸ hcomplete.append_response resp)

/-- Settles O50: the trace is settled after every case of a step (`traceInv_step`). -/
theorem stepKeepsTheTraceSettled : Obligations.StepKeepsTheTraceSettled := by
  unfold Obligations.StepKeepsTheTraceSettled
  exact fun _ _ hinv h hstep => traceInv_step hinv h hstep

end Sys2Proof.Machine

/-! ### Reset, its initialisation and `init` (spec R120, R240, R241, R248) -/

namespace Sys2Proof.Machine

/-- Settles O1: outside `IDLE` a step runs the queue (`step_queue_cons`, `step_queue_nil`), and a later `init` makes the same
loads (`initIsAcceptedUnlessTheWidthIsZero`). -/
theorem resetLoadsTheConstructionParameters : Obligations.ResetLoadsTheConstructionParameters := by
  unfold Obligations.ResetLoadsTheConstructionParameters
  refine ⟨fun c => ⟨rfl, rfl, rfl, rfl, rfl⟩, ⟨rfl, rfl, rfl⟩, fun s hw hp => ?_, fun a f w s hwidth => ?_⟩
  · have hbusy : s.phase ≠ .idle := fun hidle => by simp [hidle] at hp
    exact ⟨fun u ops hq => step_queue_cons hw hbusy hq, fun hq => step_queue_nil hw hbusy hq⟩
  · exact (initIsAcceptedUnlessTheWidthIsZero a f w s).1 hwidth

theorem blMask_cases (f : Bool) : blMask f = 0x00#8 ∨ blMask f = 0x08#8 := by
  cases f
  · exact .inl rfl
  · exact .inr rfl

/-- At reset the registers hold legal parameters, the queue is settled, and nothing is on the wire or known of the latches. -/
theorem inv_resetWith {c : Config} (hc : c.wf) : (State.resetWith c).Inv where
  bl := blMask_cases _
  width := hc
  mem := Memory.nil_wf
  seq := by simp [legalSeq, State.resetWith]
  queue := settledQueue_initBody c.rstBl
  wire := legalWire_nil _
  latches := nofun
  line := iff_of_true rfl rfl

/-- Settles O2: the invariant holds at reset (`inv_resetWith`), and the empty trace is settled. -/
theorem resetMeetsTheInvariant : Obligations.ResetMeetsTheInvariant := by
  unfold Obligations.ResetMeetsTheInvariant
  exact fun c hc => ⟨inv_resetWith hc, trivial, nofun⟩

/-! What `init_body(f)` records, leaves in `BL` and waits. -/

section InitBody

variable (f : Bool)

theorem successEvents_initBody (a : Addr) (m : Byte) : successEvents a m (initBody f) = initEvents a m (blMask f) := by
  rw [← blMask_and_blBits f]
  rfl

theorem finalBl_initBody (m : Byte) : finalBl m (initBody f) = blMask f := blMask_and_blBits f

theorem waitTotal_initBody : waitTotal (initBody f) = 64000 := by
  simp [initBody, backlightOps, waitTotal_append, waitTotal, tInitUs]

end InitBody

/-- Settles O3: the reset initialisation runs to its response (`runs_response`), having performed `init_body(RST_BL)`. -/
theorem resetInitialisationEndsIdle : Obligations.ResetInitialisationEndsIdle := by
  unfold Obligations.ResetInitialisationEndsIdle
  intro c outcomes
  obtain ⟨u, hu, hq, hruns⟩ := runs_response
    (s := { State.resetWith c with busIn := List.replicate 7 .ok ++ outcomes }) rfl nofun rfl
  have htrace : u.trace = initEvents c.rstAddr (pInitBl c c.rstBl) (blMask c.rstBl) := by
    rw [← successEvents_initBody, ← pInitBl_and_blBits]
    exact hu.trace
  exact ⟨_, _, hruns, hu.addr, hu.bl.trans (finalBl_initBody _ _), hu.width, rfl, hq, congrArg (· ++ [_]) htrace⟩

/-- Settles O37: `init` is accepted after its prologue (`exec_init_of_width_ne_zero`), and its queue runs to the answer
(`answered_of_accepted`). -/
theorem initRunsTheFixedSequence : Obligations.InitRunsTheFixedSequence := by
  unfold Obligations.InitRunsTheFixedSequence
  intro s a f w hw h
  obtain ⟨u, hu, hanswered⟩ := answered_of_accepted h (exec_init_of_width_ne_zero hw a f _) rfl
  rw [State.accept_q, successEvents_initBody, waitTotal_initBody, readBl_accept, readBl_writeBl, pInitBl_and_blBits]
    at hanswered
  exact ⟨_, hanswered, hu.addr, hu.width, hu.bl.trans (finalBl_initBody f _)⟩

end Sys2Proof.Machine

/-! ### `clear`, run to the end (spec R124, R247) -/

namespace Sys2Proof.Machine

/-- Settles O39: `clear` is accepted with its expansion, which runs to the answer (`answered_of_accepted`). -/
theorem clearSendsOneCommandAndWaitsTwice : Obligations.ClearSendsOneCommandAndWaitsTwice := by
  unfold Obligations.ClearSendsOneCommandAndWaitsTwice
  intro s h
  obtain ⟨u, hu, hanswered⟩ := answered_of_accepted h
    (a := (s.pass.setOffers s.offers.tail).accept .clear clearOps) rfl rfl
  exact ⟨_, hanswered, hu.addr, hu.bl, hu.width⟩

end Sys2Proof.Machine

/-! ### The request port of a busy block, and the end of a run (spec R54, R107, R243, R256) -/

namespace Sys2Proof.Machine

/-- No micro-operation looks at the request port (spec R107). -/
theorem runMicro_offers (s : State) (u : MicroOp) : (s.runMicro u).offers = s.offers := by
  cases u with
  | setbl m | wait d => rfl
  | xfer rs v => obtain ⟨_, hx⟩ | ⟨k, _, hx⟩ := xfer_cases s rs v <;> simp [State.runMicro, hx]

/-- Settles O7: only the step of an idle block with nothing on the wire takes a request from the port. -/
theorem offersWaitWhileTheBlockIsBusy : Obligations.OffersWaitWhileTheBlockIsBusy := by
  unfold Obligations.OffersWaitWhileTheBlockIsBusy
  intro s t hbusy h
  obtain ⟨b, rest, _, _, rfl⟩ | ⟨_, _, u, ops, _, rfl⟩ | ⟨_, _, _, rfl⟩ | ⟨_, _, _, rfl⟩ | ⟨hw, hp, _⟩ := step_cases h
  · rfl
  · exact runMicro_offers (s.pass.setQ ops) u
  · rfl
  · rfl
  · exact absurd hbusy (by simp [hw, hp])

/-- Settles O8: with nothing offered only the time of the step passes (`step_idle_nil`, `pass_eq`). -/
theorem endOfRunIsStable : Obligations.EndOfRunIsStable := by
  unfold Obligations.EndOfRunIsStable
  rintro s ⟨hp, _, hw, ho⟩
  obtain ⟨time, hpass, hle⟩ := pass_eq s
  exact ⟨time, hpass ▸ step_idle_nil hw hp ho, hle⟩

end Sys2Proof.Machine

/-! ### A change of `BL` shows with the next frame (spec R28, R41, R49, R252)

`BytesTaken` says what holds after each byte of a transaction, whatever its frame is; the frame is formed from the new `BL`, the
line is held at what it showed before. -/

namespace Sys2Proof.Machine

/-- From `s` to `t` the expander has taken `k` bytes of the transaction on the wire of `s`, during which the backlight line is held
at `shown`. -/
structure BytesTaken (s : State) (shown : Bool) (k : Nat) (t : State) : Prop where
  addr : t.addr = s.addr
  wire : t.wire = s.wire.drop k
  held : t.wire ≠ [] → t.lineHeld = some shown
  latch : 0 < k → ∃ b ∈ s.wire, t.mem.read s.addr.toNat = some b

section BytesTaken

variable {s t : State} {shown : Bool} {k : Nat}

/-- The next byte is taken: it then stands in the latch (spec R41), and unless it was the last the line stays held. -/
theorem BytesTaken.step (h : BytesTaken s shown k t) (hk : k < s.wire.length) (hRw : ∀ b ∈ s.wire, lineRw b = false) :
    ∃ u, step t = .next u ∧ BytesTaken s shown (k + 1) u := by
  have hw : t.wire = s.wire[k] :: s.wire.drop (k + 1) := h.wire.trans (List.drop_eq_getElem_cons hk)
  have hheld : t.lineHeld = some shown := h.held (hw ▸ List.cons_ne_nil _ _)
  have hmem : s.wire[k] ∈ s.wire := List.getElem_mem hk
  exact ⟨_, step_of_lineRw_low hw (hRw _ hmem), h.addr, rfl, fun hrest => (if_neg hrest).trans hheld,
    fun _ => ⟨_, hmem, h.addr ▸ takeByte_latch t _ _⟩⟩

theorem runs_bytesTaken (hheld : s.lineHeld = some shown) (hRw : ∀ b ∈ s.wire, lineRw b = false) (hk : k ≤ s.wire.length) :
    ∃ t, runs k s = .next t ∧ BytesTaken s shown k t := by
  induction k with
  | zero => exact ⟨s, rfl, rfl, rfl, fun _ => hheld, nofun⟩
  | succ k ih =>
    obtain ⟨t, hruns, h⟩ := ih (Nat.le_of_succ_le hk)
    obtain ⟨u, hstep, h'⟩ := h.step hk hRw
    exact ⟨u, by rw [runs_add hruns, runs_succ hstep, runs_zero], h'⟩

end BytesTaken

theorem lineBlk_and_blBits (m : Byte) : lineBlk (m &&& blBits) = lineBlk m := by
  simp [lineBlk, blBits]

/-- The state after the step of a `SETBL(m)`, `ops` being left of the queue. -/
def State.blChanged (s : State) (m : Byte) (ops : List MicroOp) : State := (s.pass.setQ ops).setbl m

theorem step_setbl {s : State} {m : Byte} {ops : List MicroOp} (hw : s.wire = []) (hp : s.phase ≠ .idle)
    (hq : s.q = .setbl m :: ops) : step s = .next (s.blChanged m ops) := step_queue_cons hw hp hq

section Transaction

variable {s : State} {rs : Bool} {v : Byte} {ops : List MicroOp} {k : Nat} {shown : Bool}

theorem issued_wire_length : (s.issued rs v ops).wire.length = 4 := frame_length rs v s.readBl

/-- A transaction that the bus takes, until `k` bytes of its frame have been taken. -/
theorem runs_issued_bytesTaken (hw : s.wire = []) (hp : s.phase ≠ .idle) (hq : s.q = .xfer rs v :: ops)
    (hok : s.nextOutcome = .ok) (hk : k ≤ 4) :
    ∃ t, runs (k + 1) s = .next t ∧ BytesTaken (s.issued rs v ops) s.backlightLine k t ∧ t.LineReleased := by
  have hRw : ∀ b ∈ (s.issued rs v ops).wire, lineRw b = false := fun b hb => ((legalWire_frame s rs v).1 b hb).1
  have hissued : (s.issued rs v ops).LineReleased := fun hnil => by simp [issued_wire] at hnil
  obtain ⟨t, hruns, h⟩ := runs_bytesTaken (s := s.issued rs v ops) rfl hRw (hk.trans issued_wire_length.ge)
  exact ⟨t, (runs_succ (step_xfer_ok hw hp hq hok)).trans hruns, h, runs_lineReleased hruns hissued⟩

variable {t : State}

theorem BytesTaken.wire_eq_nil_iff (h : BytesTaken (s.issued rs v ops) shown k t) : t.wire = [] ↔ 4 ≤ k := by
  rw [h.wire, List.drop_eq_nil_iff, issued_wire_length]

/-- Once a byte of the frame has been taken, the latch holds the backlight bit of `BL`. -/
theorem BytesTaken.latch_lineBlk (h : BytesTaken (s.issued rs v ops) shown k t) (hk : 0 < k) :
    ∃ b, t.mem.read s.addr.toNat = some b ∧ lineBlk b = lineBlk s.bl := by
  obtain ⟨b, hb, hread⟩ := h.latch hk
  exact ⟨b, hread, ((legalWire_frame s rs v).1 b hb).2⟩

/-- Until the last byte of the frame has been taken, the backlight line shows what it showed before (spec R252). -/
theorem BytesTaken.backlightLine_eq_shown (h : BytesTaken (s.issued rs v ops) shown k t) (hk : k < 4) :
    t.backlightLine = shown :=
  backlightLine_of_held (h.held fun hnil => hk.not_ge (h.wire_eq_nil_iff.1 hnil))

/-- When all four bytes have been taken, the backlight line shows the bit of `BL` (spec R252). -/
theorem BytesTaken.backlightLine_eq_bl (h : BytesTaken (s.issued rs v ops) shown 4 t) (hreleased : t.LineReleased) :
    t.wire = [] ∧ t.backlightLine = lineBlk s.bl := by
  have hwire : t.wire = [] := h.wire_eq_nil_iff.2 le_rfl
  obtain ⟨b, hread, hblk⟩ := h.latch_lineBlk (by decide)
  rw [backlightLine_of_not_held (hreleased hwire), outLatch_of_read (h.addr ▸ hread)]
  exact ⟨hwire, hblk⟩

/-- The `SETBL`, then the transaction until `k` bytes of its frame have been taken: the line is held at what it showed before the
`SETBL`. -/
theorem runs_setbl_bytesTaken {m : Byte} (hw : s.wire = []) (hp : s.phase ≠ .idle) (hq : s.q = .setbl m :: .xfer rs v :: ops)
    (hok : s.nextOutcome = .ok) (hk : k ≤ 4) : ∃ t, runs (k + 2) s = .next t ∧
      BytesTaken ((s.blChanged m (.xfer rs v :: ops)).issued rs v ops) s.backlightLine k t ∧ t.LineReleased := by
  rw [runs_succ (step_setbl hw hp hq)]
  exact runs_issued_bytesTaken (s := s.blChanged m (.xfer rs v :: ops)) hw hp rfl hok hk

end Transaction

/-- Settles O41: the step of the `SETBL`, the step that issues the transaction, then the bytes of the frame, one step each
(`runs_setbl_bytesTaken`). -/
theorem backlightLineChangesWithTheNextFrame : Obligations.BacklightLineChangesWithTheNextFrame := by
  unfold Obligations.BacklightLineChangesWithTheNextFrame
  intro s m rs v ops hw hp hq hok
  have hset : runs 1 s = .next (s.blChanged m (.xfer rs v :: ops)) := runs_succ (step_setbl hw hp hq)
  have hissue := step_xfer_ok (s := s.blChanged m (.xfer rs v :: ops)) hw hp rfl hok
  have hruns {k : Nat} (hk : k ≤ 4) := runs_setbl_bytesTaken hw hp hq hok hk
  have hblk : lineBlk (s.blChanged m (.xfer rs v :: ops)).bl = lineBlk m := lineBlk_and_blBits m
  rw [← hblk]
  refine ⟨⟨_, hset, rfl, rfl⟩, ⟨_, (runs_add (m := 1) hset).trans (runs_succ hissue), rfl⟩, fun n hn => ?_, ?_,
    fun n hn hn' => ?_⟩
  · match n with
    | 0 => exact ⟨s, rfl, rfl⟩
    | 1 => exact ⟨_, hset, rfl⟩
    | k + 2 =>
      obtain ⟨t, ht, h, _⟩ := hruns (k := k) (by omega)
      exact ⟨t, ht, h.backlightLine_eq_shown (by omega)⟩
  · obtain ⟨t, ht, h, hreleased⟩ := hruns le_rfl
    exact ⟨t, ht, h.backlightLine_eq_bl hreleased⟩
  · obtain ⟨k, rfl⟩ := Nat.exists_eq_add_of_le' (Nat.le_of_succ_le hn)
    obtain ⟨t, ht, h, _⟩ := hruns (k := k) (by omega)
    obtain ⟨b, hread, hb⟩ := h.latch_lineBlk (by omega)
    exact ⟨t, b, ht, hread, hb⟩

end Sys2Proof.Machine
